-- ==== Sys2Proof/Word.lean ====
section
/-! DEFINITION. The word types of the frame bitstream decoder (00_scope.md R5, R7): bytes of the bitstream and of the
frames, bitstream offsets, and the 32-bit values of the host register file. Every quantity is unsigned (R7). -/

namespace Sys2Proof

/-- A byte of the bitstream or one pixel of a frame (00_scope.md R7, 10_state.md R15). -/
abbrev Byte := BitVec 8

/-- A value of the host register file (10_state.md R24). -/
abbrev Word := BitVec 32

/-- An offset into the bitstream: CURSOR_W = 32 bits, the spec's default (00_scope.md R5; DESIGN CHOICE, unsafe for a
block built with another width, log entry 1). -/
abbrev Offset := BitVec 32

end Sys2Proof
end

