-- ==== Sys2Proof/Config.lean ====
section
/-! DEFINITION. The constants the document fixes (00_scope.md R4) and the free values of the model. -/

namespace Sys2Proof.Config

/-- FRAME_W (00_scope.md R4). -/
abbrev frameWidth : Nat := 320

/-- FRAME_H (00_scope.md R4). -/
abbrev frameHeight : Nat := 200

/-- FRAME_BYTES (00_scope.md R4): bytes in one frame. -/
abbrev frameBytes : Nat := 64000

/-- HEADER_BYTES (00_scope.md R4): bytes of the movie file before the bitstream. -/
abbrev headerBytes : Nat := 772

/-- INSTR_MAX (00_scope.md R4): the longest instruction, in bytes. -/
abbrev instrMax : Nat := 4

/-- The free bytes of the model: `freeByte draw index` is the byte that draw number `draw` gives at `index`. It has no
body, so no proof can know a value of it. It stands for every `any value` of 93_implementation_defined.md that a run can
meet: the frame buffers after reset (U12, U22), a bitstream byte the host has not loaded (10_state.md R30), and a frame
window read outside READY or past the frame (U13). Log entries 2, 3 and 7 (DESIGN CHOICE, safe). -/
opaque freeByte (draw index : Nat) : Byte

/-- The free moment of the model: which moment of a DECODE a register read in BUSY shows, for draw number `draw`
(44_host_commands.md R151, 93_implementation_defined.md U15). It has no body, so no proof can know which. Log entry 5 (DESIGN
CHOICE, safe). -/
opaque freeMoment (draw : Nat) : Nat

end Sys2Proof.Config
end

