-- ==== Sys2Proof/Syntax.lean ====
section
/-! DEFINITION. The movie opcode language: one constructor for each row of spec/opcode_table.json (30_encoding.md R70, R79,
R82). The six instructions are the whole language; the seventh row stands for the 31 reserved first bytes (R80). -/

namespace Sys2Proof

/-- One instruction. Operand widths are those of the format tables 30_encoding.md R73 to R78. -/
inductive Instr where
  /-- Literal (41_literal.md R115): pixel value `v`. -/
  | lit (v : BitVec 8)
  /-- Short temporal copy (42_temporal_copy.md R121). -/
  | tcs (position : BitVec 16) (length : BitVec 6)
  /-- Long temporal copy (42_temporal_copy.md R122). -/
  | tcl (position : BitVec 16) (length : BitVec 14)
  /-- Short self copy (43_self_copy.md R131); `distance` is extracted as 8 bits and its top bit is always 0 (30_encoding.md
  R76). -/
  | scs (distance : BitVec 8) (length : BitVec 6)
  /-- Long self copy (43_self_copy.md R132). -/
  | scl (distance : BitVec 13) (length : BitVec 8)
  /-- Absolute self copy (43_self_copy.md R133). -/
  | sca (position : BitVec 16) (length : BitVec 13)
  /-- A reserved first byte, 0xE0 to 0xFE (30_encoding.md R80). -/
  | reserved (b0 : BitVec 8)
  deriving DecidableEq, Repr

/-- The kind a first byte selects (30_encoding.md R70). -/
inductive Kind where
  | lit | tcs | tcl | scs | scl | sca | reserved
  deriving DecidableEq, Repr

/-- The kind of an instruction. -/
def Instr.kind : Instr → Kind
  | .lit _ => .lit
  | .tcs _ _ => .tcs
  | .tcl _ _ => .tcl
  | .scs _ _ => .scs
  | .scl _ _ => .scl
  | .sca _ _ => .sca
  | .reserved _ => .reserved

end Sys2Proof
end

