-- ==== Sys2Proof/Machine/State.lean ====
section
/-! DEFINITION. The whole state of the frame bitstream decoder (10_state.md R10), the host agent's pending turns and the
replies it has received (00_scope.md R6), the reasons a step can stop, and the state after power-on reset (10_state.md
R30, 70_reset_and_hazards.md R200). -/

namespace Sys2Proof.Machine

/-- ST, the state of the block (10_state.md R17). -/
inductive St where
  /-- Code 0: no session. -/
  | idle
  /-- Code 1: a session is open, between frames. -/
  | ready
  /-- Code 2: decoding a frame. -/
  | busy
  /-- Code 3: a fault stopped the session. -/
  | fault
  deriving DecidableEq, Repr

/-- The two physical frame memories (10_state.md R15). -/
inductive Buf where
  | fb0 | fb1
  deriving DecidableEq, Repr

/-- FAULT_CODE (60_exceptions.md R171). Codes 7 to 15 are never written, so they have no name. -/
inductive FaultCode where
  /-- Code 0: no fault since the last START or reset. -/
  | none
  /-- Code 1, F_UNDERRUN (60_exceptions.md R172). -/
  | underrun
  /-- Code 2, F_RESERVED (60_exceptions.md R173). -/
  | reserved
  /-- Code 3, F_REF_RANGE (60_exceptions.md R174). -/
  | refRange
  /-- Code 4, F_BACK_RANGE (60_exceptions.md R175). -/
  | backRange
  /-- Code 5, F_ABS_RANGE (60_exceptions.md R176). -/
  | absRange
  /-- Code 6, F_CONFIG (60_exceptions.md R177). -/
  | config
  deriving DecidableEq, Repr

/-- What an address that a memory does not list reads as. -/
inductive Fill where
  /-- A free byte: the contents after power-on, or of a bitstream byte the host has not loaded (93_implementation_defined.md
  U12, U22; log entries 2 and 3). `draw` tells one set of free bytes from another. -/
  | unknown (draw : Nat)
  /-- Zero: the contents START establishes (44_host_commands.md R146). -/
  | zero
  deriving DecidableEq, Repr

/-- A byte memory: the listed cells, addresses rising, over a background that unlisted addresses read as. -/
structure Memory where
  fill  : Fill
  cells : List Host.Cell
  deriving DecidableEq, Repr

/-- One transaction of the host, or of the environment around the block (20_memory.md R40, R46, R47; 92_eei_decisions.md
D22: register read, register write, frame-window byte read; the host's own write of its bitstream memory; power-on
reset). -/
inductive HostOp where
  /-- Write host register `number` (10_state.md R24, R26, R27). -/
  | writeReg (number : Nat) (value : Word)
  /-- Read host register `number` (10_state.md R24; 44_host_commands.md R151). -/
  | readReg (number : Nat)
  /-- Read the frame read window at `index` (44_host_commands.md R160). -/
  | readWindow (index : Nat)
  /-- Store one byte of the bitstream (20_memory.md R41; 44_host_commands.md R163). -/
  | loadBs (offset : Offset) (value : Byte)
  /-- Power-on reset (70_reset_and_hazards.md R200). -/
  | powerOnReset
  deriving DecidableEq, Repr

/-- One turn of the host: which agent moves next is data of the state (log entry 4). -/
inductive HostTurn where
  /-- The host does nothing: the FBD moves. -/
  | yield
  /-- The host performs a transaction and the FBD does not move. -/
  | act (op : HostOp)
  deriving DecidableEq, Repr

/-- What a host read returned. -/
inductive Reply where
  | register (value : Word)
  | pixel (value : Byte)
  deriving DecidableEq, Repr

/-- The state: every item of 10_state.md R10, the bitstream memory of 20_memory.md R41, and four fields of the model's own
(`turns` and `replies` of the host agent, `draws` and `decodeFrom` of the free values; log entries 4, 5, 7 and 17). -/
structure State where
  /-- FB0 (10_state.md R15). -/
  fb0 : Memory
  /-- FB1 (10_state.md R15). -/
  fb1 : Memory
  /-- ROLE (10_state.md R16): which buffer is tagged reference; FB0 is ROLE = 0. -/
  role : Buf
  /-- CURSOR, the program counter (10_state.md R13). -/
  cursor : Offset
  /-- WP, the write position (10_state.md R12). -/
  wp : BitVec 16
  /-- ST (10_state.md R17). -/
  st : St
  /-- FRAME_INDEX (10_state.md R18). -/
  frameIndex : Word
  /-- FRAME_COUNT (10_state.md R19). -/
  frameCount : Word
  /-- BS_LEN (10_state.md R20). -/
  bsLen : Offset
  /-- CLAMPED (10_state.md R21). -/
  clamped : Bool
  /-- EOM (10_state.md R22). -/
  eom : Bool
  /-- FAULT_CODE (10_state.md R23). -/
  faultCode : FaultCode
  /-- Space BS, the host's bitstream memory (20_memory.md R41). -/
  bs : Memory
  /-- The host's turns still to come, next first (the model's own). -/
  turns : List HostTurn
  /-- What the host's reads have returned, oldest first (the model's own). -/
  replies : List Reply
  /-- How many free values have been drawn (the model's own). -/
  draws : Nat
  /-- CURSOR at the last accepted DECODE (the model's own): with WP = 0 and CLAMPED = 0 it is the first moment of that DECODE, and
  the ones a register read in BUSY may show follow from it (log entry 5). -/
  decodeFrom : Offset
  deriving DecidableEq, Repr

/-- Reasons a step stops with a fault of the MODEL. The block's own faults (60_exceptions.md) are not these: they are
entered, as a next state. -/
inductive Fault where
  /-- Raised by the copy engine for an access at frame index 64000 or above, which exists in no frame space (20_memory.md
  R42). Safe; 40_instruction_cycle.md R111 says no step reaches it. Log entry 11. -/
  | frameIndexOutOfRange
  /-- Raised by the FBD's move when ST = BUSY and WP is above 64000, a value WP never holds (10_state.md R12), for which
  neither an instruction step nor frame completion is described (40_instruction_cycle.md R95). Safe. Log entry 11. -/
  | writePositionOutOfRange
  deriving DecidableEq, Repr

/-- Reasons a step is refused. -/
inductive Refusal where
  /-- Raised by exec for an instruction with no meaning yet. Safe. -/
  | notModelled (mnemonic : String)
  /-- Raised by a host write of the bitstream memory outside IDLE: the model has no such move (70_reset_and_hazards.md R205;
  93_implementation_defined.md U19). Safe. Log entry 9. -/
  | bitstreamWriteInSession
  deriving DecidableEq, Repr

/-- The outcome of a step. -/
abbrev Result := Host.Outcome State Fault Refusal

/-- The machine after power-on reset (10_state.md R30): ST = IDLE, every register 0, both frame buffers and the bitstream
memory unspecified. -/
def State.reset : State where
  fb0 := { fill := .unknown 0, cells := [] }
  fb1 := { fill := .unknown 1, cells := [] }
  role := .fb0
  cursor := 0#32
  wp := 0#16
  st := .idle
  frameIndex := 0#32
  frameCount := 0#32
  bsLen := 0#32
  clamped := false
  eom := false
  faultCode := .none
  bs := { fill := .unknown 2, cells := [] }
  turns := []
  replies := []
  draws := 3
  decodeFrom := 0#32

end Sys2Proof.Machine
end

