-- ==== Sys2Proof/Machine/Ops.lean ====
section
/-! DEFINITION. The named operations over memories and registers: bytes of a memory, the REF and OUT views (20_memory.md
R42 to R44), the copy engine's two primitives COPY and PUT (40_instruction_cycle.md R102, R103), the commit (R104), and
fault entry with the way out of FAULT (60_exceptions.md R179, R180). -/

namespace Sys2Proof.Machine

/-- The byte listed at an address, if any. -/
def lookupCell (a : Nat) : List Host.Cell → Option Byte
  | [] => none
  | (k, b) :: r => if k = a then some b else lookupCell a r

/-- The cells without those at an address. -/
def eraseCell (a : Nat) : List Host.Cell → List Host.Cell
  | [] => []
  | (k, b) :: r => if k = a then eraseCell a r else (k, b) :: eraseCell a r

/-- The cells with one more, put before the first greater address. -/
def insertCell (a : Nat) (v : Byte) : List Host.Cell → List Host.Cell
  | [] => [(a, v)]
  | (k, b) :: r => if a < k then (a, v) :: (k, b) :: r else (k, b) :: insertCell a v r

/-- The byte an unlisted address is known to hold, if one is known. -/
def Fill.known : Fill → Option Byte
  | .unknown _ => none
  | .zero => some 0#8

/-- The byte an unlisted address reads as: zero after START (10_state.md R31), a free byte before (R30). -/
def Fill.byte (a : Nat) : Fill → Byte
  | .unknown draw => Config.freeByte draw a
  | .zero => 0#8

/-- MemRead of one byte (00_scope.md R8). -/
def Memory.byte (m : Memory) (a : Nat) : Byte := (lookupCell a m.cells).getD (m.fill.byte a)

/-- MemWrite of one byte (00_scope.md R8), keeping the canonical form: the byte an unlisted address is known to hold is
not listed. -/
def Memory.set (m : Memory) (a : Nat) (v : Byte) : Memory :=
  { m with
    cells := if m.fill.known = some v then eraseCell a m.cells else insertCell a v (eraseCell a m.cells) }

/-- The canonical form: addresses strictly rising, no cell equal to what its address is known to read as unlisted. -/
abbrev Memory.wf (m : Memory) : Prop :=
  m.cells.Pairwise (fun x y => x.1 < y.1) ∧ ∀ c ∈ m.cells, m.fill.known ≠ some c.2

/-- Every listed address lies below a size (20_memory.md R40). -/
abbrev Memory.within (size : Nat) (m : Memory) : Prop := ∀ c ∈ m.cells, c.1 < size

/-- A memory of zeros (44_host_commands.md R146). -/
def Memory.zeroed : Memory := { fill := .zero, cells := [] }

/-- The buffer that is not `b`: 1 − ROLE of 10_state.md R16. -/
def Buf.other : Buf → Buf
  | .fb0 => .fb1
  | .fb1 => .fb0

/-- A physical frame memory (20_memory.md R42). -/
def State.fb (s : State) : Buf → Memory
  | .fb0 => s.fb0
  | .fb1 => s.fb1

/-- REF = FB[ROLE] (10_state.md R16, 20_memory.md R43). -/
def State.ref (s : State) : Memory := s.fb s.role

/-- OUT = FB[1 − ROLE] (10_state.md R16, 20_memory.md R44). -/
def State.out (s : State) : Memory := s.fb s.role.other

/-- The state with a new OUT. -/
def State.setOut (s : State) (m : Memory) : State :=
  match s.role with
  | .fb0 => { s with fb1 := m }
  | .fb1 => { s with fb0 := m }

/-- REF[a] (00_scope.md R8). -/
def State.refByte (s : State) (a : Nat) : Byte := s.ref.byte a

/-- OUT[a] (00_scope.md R8). -/
def State.outByte (s : State) (a : Nat) : Byte := s.out.byte a

/-- The spaces a copy reads (40_instruction_cycle.md R114). -/
inductive Space where
  | ref | out
  deriving DecidableEq, Repr

/-- MemRead(space, a, 1) (00_scope.md R8). -/
def State.load (s : State) (a : Nat) : Space → Byte
  | .ref => s.refByte a
  | .out => s.outByte a

/-- MemWrite(OUT, a, 1, v) (00_scope.md R8). -/
def State.storeOut (s : State) (a : Nat) (v : Byte) : State := s.setOut (s.out.set a v)

/-- The loop of COPY (40_instruction_cycle.md R102): one byte loaded, then that byte stored, indices ascending, each store
done before the next load (20_memory.md R55). -/
def copyBytes (space : Space) : Nat → Nat → Nat → State → State
  | _, _, 0, s => s
  | src, dst, n + 1, s => copyBytes space (src + 1) (dst + 1) n (s.storeOut dst (s.load src space))

/-- COPY(space, src, n) at the write position (40_instruction_cycle.md R102, R114). An access at index 64000 or above is an
access to an address that does not exist (20_memory.md R42; log entry 11). -/
def copyOp (space : Space) (src n : Nat) (s : State) : Except Fault State :=
  if src + n ≤ Config.frameBytes ∧ s.wp.toNat + n ≤ Config.frameBytes then
    .ok (copyBytes space src s.wp.toNat n s)
  else
    .error .frameIndexOutOfRange

/-- PUT(v) (40_instruction_cycle.md R103), with the same check of the index (20_memory.md R42; log entry 11). -/
def putOp (v : Byte) (s : State) : Except Fault State :=
  if s.wp.toNat < Config.frameBytes then .ok (s.storeOut s.wp.toNat v) else .error .frameIndexOutOfRange

/-- The commit of WP and CURSOR (40_instruction_cycle.md R104). The sums never leave their registers in a step
(40_instruction_cycle.md R111; log entry 16). -/
def commit (n size : Nat) (s : State) : State :=
  { s with wp := BitVec.ofNat 16 (s.wp.toNat + n), cursor := BitVec.ofNat 32 (s.cursor.toNat + size) }

/-- Fault entry (60_exceptions.md R179): FAULT_CODE and ST are written and nothing else changes. -/
def takeFault (code : FaultCode) (s : State) : State := { s with faultCode := code, st := .fault }

/-- The way out of FAULT, and of READY: STOP's effect (60_exceptions.md R180, 44_host_commands.md R149). There is no return
from a fault: the code is kept and nothing resumes. -/
def closeSession (s : State) : State := { s with st := .idle }

/-- The host receives what a read returned; nothing else changes (20_memory.md R51). -/
def State.reply (s : State) (r : Reply) : State := { s with replies := s.replies ++ [r] }

end Sys2Proof.Machine
end

