-- ==== Sys2Proof/Machine/Literal.lean ====
section
/-! DEFINITION. LIT (41_literal.md) and the reserved first bytes (30_encoding.md R80). -/

namespace Sys2Proof.Machine

/-- LIT (41_literal.md R115): PUT(v), WP + 1, CURSOR + 2; no flag. -/
def execLit (v : BitVec 8) (s : State) : Result :=
  match putOp v s with
  | .ok s' => .next (commit 1 2 s')
  | .error f => .fault f

/-- A reserved first byte raises F_RESERVED, writes nothing and consumes nothing (30_encoding.md R80, 60_exceptions.md
R173). Which of the 31 values it is makes no difference. -/
def execReserved (_b0 : BitVec 8) (s : State) : Result := .next (takeFault .reserved s)

end Sys2Proof.Machine
end

