-- ==== Sys2Proof/Machine/Flags.lean ====
section
/-! DEFINITION. The clamp and the CLAMPED flag, the end-of-movie test and the EOM flag, and the STATUS register's bits. No
instruction reads a flag (10_state.md section 6). -/

namespace Sys2Proof.Machine

/-- The clamp, n = min(length, 64000 − WP) (40_instruction_cycle.md R100). -/
def clampCount (length wp : Nat) : Nat := min length (Config.frameBytes - wp)

/-- CLAMPED after a copy's commit: set when n < length, otherwise kept (40_instruction_cycle.md R104, 10_state.md R21). -/
def clampedAfter (n length : Nat) (clamped : Bool) : Bool := clamped || decide (n < length)

/-- The end-of-movie test FRAME_INDEX = FRAME_COUNT − 1 on the index after its increment (44_host_commands.md R148), written
as an exact sum. -/
def lastFrame (frameIndex frameCount : Word) : Bool := decide (frameIndex.toNat + 1 = frameCount.toNat)

/-- The code of ST (10_state.md R17). -/
def St.code : St → BitVec 2
  | .idle => 0
  | .ready => 1
  | .busy => 2
  | .fault => 3

/-- The bit of ROLE (10_state.md R16). -/
def Buf.code : Buf → BitVec 1
  | .fb0 => 0
  | .fb1 => 1

/-- The code of a fault (60_exceptions.md R171). -/
def FaultCode.code : FaultCode → BitVec 4
  | .none => 0
  | .underrun => 1
  | .reserved => 2
  | .refRange => 3
  | .backRange => 4
  | .absRange => 5
  | .config => 6

/-- STATUS (10_state.md R25): bits 31:12 zero, FAULT_CODE in 11:8, bits 7:5 zero, EOM, CLAMPED, ROLE, ST in 1:0. -/
def statusWord (s : State) : Word :=
  0#20 ++ s.faultCode.code ++ 0#3 ++ BitVec.ofBool s.eom ++ BitVec.ofBool s.clamped ++ s.role.code ++ s.st.code

end Sys2Proof.Machine
end

