-- ==== Sys2Proof/Machine/Operands.lean ====
section
/-! DEFINITION. The operand forms: the three addressing modes of a copy's source, resolved to a space and an index, with
the range condition and the fault of each (40_instruction_cycle.md R113, R114, R101). The store always goes to the write
position. -/

namespace Sys2Proof.Machine

/-- The source of a copy (40_instruction_cycle.md R113). -/
inductive Source where
  /-- Absolute in the reference frame: TCS, TCL. -/
  | absoluteRef (position : Nat)
  /-- Backward from the write position: SCS, SCL. -/
  | backward (distance : Nat)
  /-- Absolute in the output frame: SCA. -/
  | absoluteOut (position : Nat)
  deriving DecidableEq, Repr

/-- The space a source lies in (40_instruction_cycle.md R114). -/
def Source.space : Source → Space
  | .absoluteRef _ => .ref
  | .backward _ => .out
  | .absoluteOut _ => .out

/-- The index of the first source byte (40_instruction_cycle.md R114), WP being its value before the instruction. The
subtraction is used only where `distance ≤ WP` has been checked (R107). -/
def Source.index (wp : Nat) : Source → Nat
  | .absoluteRef position => position
  | .backward distance => wp - distance
  | .absoluteOut position => position

/-- The condition on the source range of a copy of n > 0 bytes: 42_temporal_copy.md R120, 43_self_copy.md R130 and R133. The
sum is exact, so it does not wrap at 16 bits (40_instruction_cycle.md R107). -/
def Source.inRange (wp n : Nat) : Source → Bool
  | .absoluteRef position => decide (position + n ≤ Config.frameBytes)
  | .backward distance => decide (1 ≤ distance) && decide (distance ≤ wp)
  | .absoluteOut position => decide (position + n ≤ wp)

/-- The fault of a source out of range (60_exceptions.md R174 to R176). -/
def Source.faultCode : Source → FaultCode
  | .absoluteRef _ => .refRange
  | .backward _ => .backRange
  | .absoluteOut _ => .absRange

end Sys2Proof.Machine
end

