-- ==== Sys2Proof/Machine/CopyEngine.lean ====
section
/-! DEFINITION. What the five copy instructions share (40_instruction_cycle.md R106): the clamp, the range check on the
clamped count, COPY, the CLAMPED flag and the commit. -/

namespace Sys2Proof.Machine

/-- The commit of a copy: CLAMPED, WP and CURSOR in one update (40_instruction_cycle.md R104). -/
def commitCopy (n length size : Nat) (s : State) : State :=
  commit n size { s with clamped := clampedAfter n length s.clamped }

/-- A copy instruction of `size` bytes (40_instruction_cycle.md R100 to R106): clamp first; with n = 0 no check is made and
no byte moves (R101); otherwise a source out of range enters its fault before any byte is written. -/
def runCopy (src : Source) (length size : Nat) (s : State) : Result :=
  let n := clampCount length s.wp.toNat
  if n = 0 then
    .next (commitCopy n length size s)
  else if src.inRange s.wp.toNat n then
    match copyOp src.space (src.index s.wp.toNat) n s with
    | .ok s' => .next (commitCopy n length size s')
    | .error f => .fault f
  else
    .next (takeFault src.faultCode s)

end Sys2Proof.Machine
end

