-- ==== Sys2Proof/Machine/SelfCopy.lean ====
section
/-! DEFINITION. The self copies SCS, SCL and SCA (43_self_copy.md). -/

namespace Sys2Proof.Machine

/-- SCS (43_self_copy.md R130, R131): 2 bytes. -/
def execScs (distance : BitVec 8) (length : BitVec 6) (s : State) : Result :=
  runCopy (.backward distance.toNat) length.toNat 2 s

/-- SCL (43_self_copy.md R130, R132): 3 bytes. -/
def execScl (distance : BitVec 13) (length : BitVec 8) (s : State) : Result :=
  runCopy (.backward distance.toNat) length.toNat 3 s

/-- SCA (43_self_copy.md R133): 4 bytes. -/
def execSca (position : BitVec 16) (length : BitVec 13) (s : State) : Result :=
  runCopy (.absoluteOut position.toNat) length.toNat 4 s

end Sys2Proof.Machine
end

