-- ==== Sys2Proof/Machine/TemporalCopy.lean ====
section
/-! DEFINITION. The temporal copies TCS and TCL (42_temporal_copy.md). -/

namespace Sys2Proof.Machine

/-- TCS (42_temporal_copy.md R120, R121): 3 bytes. -/
def execTcs (position : BitVec 16) (length : BitVec 6) (s : State) : Result :=
  runCopy (.absoluteRef position.toNat) length.toNat 3 s

/-- TCL (42_temporal_copy.md R120, R122): 4 bytes. -/
def execTcl (position : BitVec 16) (length : BitVec 14) (s : State) : Result :=
  runCopy (.absoluteRef position.toNat) length.toNat 4 s

end Sys2Proof.Machine
end

