-- ==== Sys2Proof/Machine/Dispatch.lean ====
section
/-! DEFINITION. One arm per constructor of Instr, each one direct call of its meaning. -/

namespace Sys2Proof.Machine

def exec (i : Instr) (s : State) : Host.Outcome State Fault Refusal :=
  match i with
  | .lit v => Sys2Proof.Machine.execLit v s
  | .tcs position length => Sys2Proof.Machine.execTcs position length s
  | .tcl position length => Sys2Proof.Machine.execTcl position length s
  | .scs distance length => Sys2Proof.Machine.execScs distance length s
  | .scl distance length => Sys2Proof.Machine.execScl distance length s
  | .sca position length => Sys2Proof.Machine.execSca position length s
  | .reserved b0 => Sys2Proof.Machine.execReserved b0 s

end Sys2Proof.Machine
end

