-- ==== Sys2Proof/WellFormed.lean ====
section
/-! DEFINITION. Which instructions an encoding exists for (30_encoding.md R82). Every operand range but two is the width of
its field; the two checks below are the short self copy's distance and the reserved first bytes. -/

namespace Sys2Proof

/-- An instruction some bytes stand for. SCS: `distance` is 0 to 127, its eighth bit belongs to the tag (30_encoding.md
R76, R82, R84; 90_conflicts.md C3). RESERVED: 0xE0 to 0xFE (R80). -/
def Instr.wf : Instr → Bool
  | .lit _ => true
  | .tcs _ _ => true
  | .tcl _ _ => true
  | .scs distance _ => decide (distance.toNat ≤ 127)
  | .scl _ _ => true
  | .sca _ _ => true
  | .reserved b0 => decide (0xE0 ≤ b0.toNat) && decide (b0.toNat ≤ 0xFE)

end Sys2Proof
end

