-- ==== Sys2Proof/Decode.lean ====
section
/-! DEFINITION. Decoding and encoding (30_encoding.md): the ordered classification of the first byte (R72), the assembly
of a word with the first byte most significant (R71, 20_memory.md R48), the field extraction of each format (R73 to R78),
the decoder over a list of bytes, the encoder (R84), and the host's entry point over a word of the opcode table. -/

namespace Sys2Proof

/-- The ordered first-byte tests of 30_encoding.md R72. -/
def classify (b0 : Byte) : Kind :=
  if b0 = 0xFF#8 then .lit
  else if b0.extractLsb' 6 2 = 0b00#2 then .tcs
  else if b0.extractLsb' 6 2 = 0b01#2 then .tcl
  else if b0.extractLsb' 5 3 = 0b100#3 then .scs
  else if b0.extractLsb' 5 3 = 0b101#3 then .scl
  else if b0.extractLsb' 5 3 = 0b110#3 then .sca
  else .reserved

/-- The size in bytes of an instruction of a kind (30_encoding.md R70); a reserved first byte has none (R80). -/
def Kind.size : Kind → Option Nat
  | .lit => some 2
  | .tcs => some 3
  | .tcl => some 4
  | .scs => some 2
  | .scl => some 3
  | .sca => some 4
  | .reserved => none

/-- Two bytes as a word, first byte most significant (20_memory.md R48). -/
def word16 (b0 b1 : Byte) : BitVec 16 := b0 ++ b1

/-- Three bytes as a word, first byte most significant (20_memory.md R48). -/
def word24 (b0 b1 b2 : Byte) : BitVec 24 := b0 ++ b1 ++ b2

/-- Four bytes as a word, first byte most significant (20_memory.md R48). -/
def word32 (b0 b1 b2 b3 : Byte) : BitVec 32 := b0 ++ b1 ++ b2 ++ b3

/-- Format L (30_encoding.md R73): `v = word[7:0]`. -/
def fieldsLit (w : BitVec 16) : Instr := .lit (w.extractLsb' 0 8)

/-- Format T3 (30_encoding.md R74): `position = word[21:6]`, `length = word[5:0]`. -/
def fieldsTcs (w : BitVec 24) : Instr := .tcs (w.extractLsb' 6 16) (w.extractLsb' 0 6)

/-- Format T4 (30_encoding.md R75): `position = word[29:14]`, `length = word[13:0]`. -/
def fieldsTcl (w : BitVec 32) : Instr := .tcl (w.extractLsb' 14 16) (w.extractLsb' 0 14)

/-- Format S2 (30_encoding.md R76): `distance = word[13:6]`, bit 13 shared with the tag, `length = word[5:0]`. -/
def fieldsScs (w : BitVec 16) : Instr := .scs (w.extractLsb' 6 8) (w.extractLsb' 0 6)

/-- Format S3 (30_encoding.md R77): `distance = word[20:8]`, `length = word[7:0]`. -/
def fieldsScl (w : BitVec 24) : Instr := .scl (w.extractLsb' 8 13) (w.extractLsb' 0 8)

/-- Format A4 (30_encoding.md R78): `position = word[28:13]`, `length = word[12:0]`. -/
def fieldsSca (w : BitVec 32) : Instr := .sca (w.extractLsb' 13 16) (w.extractLsb' 0 13)

/-- Why a list of bytes holds no whole instruction: both cases are F_UNDERRUN when they meet the end of the bitstream
(60_exceptions.md R172). -/
inductive DecodeError where
  /-- There is no first byte (40_instruction_cycle.md R96). -/
  | noFirstByte
  /-- The first byte selects a kind whose later bytes are missing (40_instruction_cycle.md R98). -/
  | truncated (k : Kind)
  deriving DecidableEq, Repr

/-- The decoder: the instruction at the head of a list of bytes and the bytes after it (40_instruction_cycle.md R96 to
R99). A reserved first byte is recognised before any later byte is looked at (60_exceptions.md R173, R178); no size is
defined for it (30_encoding.md R80), so the bytes after it are no instruction of the frame (log entry 13). -/
def decode : List Byte → Except DecodeError (Instr × List Byte)
  | [] => .error .noFirstByte
  | b0 :: rest =>
    match classify b0 with
    | .lit =>
      match rest with
      | b1 :: r => .ok (fieldsLit (word16 b0 b1), r)
      | [] => .error (.truncated .lit)
    | .tcs =>
      match rest with
      | b1 :: b2 :: r => .ok (fieldsTcs (word24 b0 b1 b2), r)
      | _ => .error (.truncated .tcs)
    | .tcl =>
      match rest with
      | b1 :: b2 :: b3 :: r => .ok (fieldsTcl (word32 b0 b1 b2 b3), r)
      | _ => .error (.truncated .tcl)
    | .scs =>
      match rest with
      | b1 :: r => .ok (fieldsScs (word16 b0 b1), r)
      | [] => .error (.truncated .scs)
    | .scl =>
      match rest with
      | b1 :: b2 :: r => .ok (fieldsScl (word24 b0 b1 b2), r)
      | _ => .error (.truncated .scl)
    | .sca =>
      match rest with
      | b1 :: b2 :: b3 :: r => .ok (fieldsSca (word32 b0 b1 b2 b3), r)
      | _ => .error (.truncated .sca)
    | .reserved => .ok (.reserved b0, rest)

/-- The bytes of a 16-bit word, most significant first (30_encoding.md R84). -/
def bytesOf16 (w : BitVec 16) : List Byte := [w.extractLsb' 8 8, w.extractLsb' 0 8]

/-- The bytes of a 24-bit word, most significant first (30_encoding.md R84). -/
def bytesOf24 (w : BitVec 24) : List Byte := [w.extractLsb' 16 8, w.extractLsb' 8 8, w.extractLsb' 0 8]

/-- The bytes of a 32-bit word, most significant first (30_encoding.md R84). -/
def bytesOf32 (w : BitVec 32) : List Byte :=
  [w.extractLsb' 24 8, w.extractLsb' 16 8, w.extractLsb' 8 8, w.extractLsb' 0 8]

/-- The encoder: the assembly formulas of 30_encoding.md R84, each field placed above the one to its right. SCS is tag
`10` over the 8-bit distance, whose top bit 0 completes the tag `100` (R76). -/
def encode : Instr → List Byte
  | .lit v => bytesOf16 (0xFF#8 ++ v)
  | .tcs position length => bytesOf24 (0b00#2 ++ position ++ length)
  | .tcl position length => bytesOf32 (0b01#2 ++ position ++ length)
  | .scs distance length => bytesOf16 (0b10#2 ++ distance ++ length)
  | .scl distance length => bytesOf24 (0b101#3 ++ distance ++ length)
  | .sca position length => bytesOf32 (0b110#3 ++ position ++ length)
  | .reserved b0 => [b0]

/-- The low `k` bytes of a number, most significant first. -/
def bigEndian : Nat → Nat → List Byte
  | 0, _ => []
  | k + 1, w => BitVec.ofNat 8 (w >>> (8 * k)) :: bigEndian k w

/-- The bytes of an opcode-table word of `nbits` bits, followed by zero bytes up to the longest instruction. The table
numbers the bits of a row's assembled word and says which bits are the first byte of BS: the most significant ones
("first byte of BS is bits 15:8 of word"); log entry 14. -/
def tableBytes (nbits w : Nat) : List Byte :=
  let bytes := bigEndian ((nbits + 7) / 8) w
  bytes ++ List.replicate (4 - bytes.length) 0#8

/-- The instruction the decoder reads from an opcode-table word. -/
def decodeTableWord (nbits w : Nat) : Option Instr :=
  match decode (tableBytes nbits w) with
  | .ok (i, _) => some i
  | .error _ => none

end Sys2Proof
end

