-- ==== Sys2Proof/Machine/Fetch.lean ====
section
/-! DEFINITION. Instruction fetch from space BS at CURSOR (40_instruction_cycle.md R96 to R99), and placing an
instruction's bytes where the next fetch reads them. -/

namespace Sys2Proof.Machine

/-- `n` bytes of a memory from an address on. -/
def Memory.bytes (m : Memory) (a : Nat) : Nat → List Byte
  | 0 => []
  | n + 1 => m.byte a :: m.bytes (a + 1) n

/-- The bytes the decoder may look at: from CURSOR on, at most the longest instruction, none at or beyond BS_LEN. Reading
one that the instruction does not consume has no effect and raises nothing (20_memory.md R51, R59, 70_reset_and_hazards.md
R207). -/
def fetchWindow (s : State) : List Byte :=
  s.bs.bytes s.cursor.toNat (min Config.instrMax (s.bsLen.toNat - s.cursor.toNat))

/-- Fetch, classify and extract (40_instruction_cycle.md R96 to R99). A byte missing before BS_LEN is F_UNDERRUN; the
decoder meets a reserved first byte before it asks for later bytes, so the order is that of 60_exceptions.md R178. -/
def fetch (s : State) : Except FaultCode Instr :=
  match decode (fetchWindow s) with
  | .ok (i, _) => .ok i
  | .error _ => .error .underrun

/-- Store bytes at consecutive addresses. -/
def Memory.setBytes (m : Memory) (a : Nat) : List Byte → Memory
  | [] => m
  | b :: r => (m.set a b).setBytes (a + 1) r

/-- The state in which the FBD's next move is an instruction step that fetches the given bytes: a session inside a DECODE
(ST = BUSY, WP < 64000, 40_instruction_cycle.md R95), no host turn before it, the bytes at CURSOR and below BS_LEN. CURSOR and
WP are kept where they allow it. Log entry 14. -/
def placeInstr (bytes : List Byte) (s : State) : State :=
  let place : Nat := if s.cursor.toNat + bytes.length < 2 ^ 32 then s.cursor.toNat else 0
  { s with
    turns := []
    st := .busy
    wp := if s.wp.toNat < Config.frameBytes then s.wp else 0
    cursor := BitVec.ofNat 32 place
    bsLen := BitVec.ofNat 32 (max s.bsLen.toNat (place + bytes.length))
    bs := s.bs.setBytes place bytes }

end Sys2Proof.Machine
end

