-- ==== Sys2Proof/Machine/Moment.lean ====
section
/-! DEFINITION. One instruction step, and the moments between the instruction steps of a DECODE, which a register read in BUSY
shows (44_host_commands.md R151, 93_implementation_defined.md U15). -/

namespace Sys2Proof.Machine

/-- One instruction step: fetch, then the instruction's meaning (40_instruction_cycle.md R106). -/
def instrStep (s : State) : Result :=
  match fetch s with
  | .ok i => exec i s
  | .error code => .next (takeFault code s)

/-- The first moment of the DECODE that a state is inside: what the acceptance left in CURSOR, WP and CLAMPED
(44_host_commands.md R147). BS, BS_LEN and REF are the same throughout a DECODE (20_memory.md R41, R43). -/
def decodeStart (s : State) : State := { s with cursor := s.decodeFrom, wp := 0#16, clamped := false }

/-- The moment after one more instruction step; the same moment if the step faults or the frame is complete, since a fault
writes none of the three registers (60_exceptions.md R179). -/
def nextMoment (s : State) : State :=
  if s.wp.toNat < Config.frameBytes then
    match instrStep s with
    | .next t => if t.st = .busy then t else s
    | .fault _ => s
    | .refused _ => s
  else s

/-- The moment after at most `k` more instruction steps. -/
def momentAfter : Nat → State → State
  | 0, s => s
  | k + 1, s => momentAfter k (nextMoment s)

/-- Moment number `k` of the DECODE that a state is inside, whether before or after the present one (44_host_commands.md R151:
any value they take during the DECODE). -/
def decodeMoment (k : Nat) (s : State) : State := momentAfter k (decodeStart s)

/-- What a register read sees in CURSOR, WP and CLAMPED: the present values (10_state.md R27), and in BUSY those of a free moment
of the DECODE, drawn anew at each read (44_host_commands.md R151, 93_implementation_defined.md U15; log entry 5). -/
def observed (s : State) : State := if s.st = .busy then decodeMoment (Config.freeMoment s.draws) s else s

end Sys2Proof.Machine
end

