-- ==== Sys2Proof/Machine/HostPort.lean ====
section
/-! DEFINITION. The host's side of the block: the commands START, DECODE and STOP, frame completion, the host register
file, the frame read window, the host's bitstream memory and power-on reset (44_host_commands.md, 10_state.md R24 to R27,
70_reset_and_hazards.md R200). -/

namespace Sys2Proof.Machine

/-- START (44_host_commands.md R146), in IDLE. The else-branch is one step (R146; 20_memory.md R57; log entry 6). -/
def cmdStart (s : State) : State :=
  if s.frameCount.toNat < 2 then
    takeFault .config { s with clamped := false, eom := false }
  else
    { s with
      fb0 := .zeroed
      fb1 := .zeroed
      role := .fb0
      cursor := 0#32
      wp := 0#16
      frameIndex := 0#32
      clamped := false
      eom := false
      faultCode := .none
      st := .ready }

/-- The acceptance of DECODE (44_host_commands.md R147), in READY; `decodeFrom` notes the CURSOR it begins at (log entry 5). -/
def cmdDecode (s : State) : State :=
  { s with st := .busy, wp := 0#16, clamped := false, decodeFrom := s.cursor }

/-- STOP (44_host_commands.md R149), in READY or FAULT. -/
def cmdStop (s : State) : State := closeSession s

/-- Frame completion (44_host_commands.md R148), one indivisible update. -/
def completeFrame (s : State) : State :=
  let index := s.frameIndex + 1#32
  let last := lastFrame index s.frameCount
  { s with
    role := s.role.other
    frameIndex := index
    eom := s.eom || last
    st := if last then .idle else .ready }

/-- A write of CMD: the value selects a command, the state accepts or drops it (10_state.md R26, 44_host_commands.md R150). -/
def writeCmd (value : Word) (s : State) : State :=
  match s.st with
  | .idle => if value = 1#32 then cmdStart s else s
  | .ready => if value = 2#32 then cmdDecode s else if value = 3#32 then cmdStop s else s
  | .busy => s
  | .fault => if value = 3#32 then cmdStop s else s

/-- The registers of the host register file (10_state.md R24). -/
inductive HostReg where
  | cmd | status | cursor | wp | frameIndex | frameCount | bsLen
  deriving DecidableEq, Repr

/-- The register of a number, 0 to 6 (10_state.md R24). -/
def HostReg.ofNumber : Nat → Option HostReg
  | 0 => some .cmd
  | 1 => some .status
  | 2 => some .cursor
  | 3 => some .wp
  | 4 => some .frameIndex
  | 5 => some .frameCount
  | 6 => some .bsLen
  | _ => none

/-- A host register write (10_state.md R24, R27). A write to a read-only register, to a number above 6, or of FRAME_COUNT or
BS_LEN outside IDLE is dropped. -/
def writeReg (number : Nat) (value : Word) (s : State) : State :=
  match HostReg.ofNumber number with
  | some .cmd => writeCmd value s
  | some .frameCount => if s.st = .idle then { s with frameCount := value } else s
  | some .bsLen => if s.st = .idle then { s with bsLen := value } else s
  | some .status => s
  | some .cursor => s
  | some .wp => s
  | some .frameIndex => s
  | none => s

/-- The value a host register read returns (10_state.md R24, R25, R27): narrower registers with zero bits above, CMD and
numbers above 6 as 0. In BUSY, CURSOR, WP and STATUS's CLAMPED are those of a free moment of the DECODE (44_host_commands.md
R151; log entry 5). -/
def regValue (number : Nat) (s : State) : Word :=
  match HostReg.ofNumber number with
  | some .cmd => 0
  | some .status => statusWord { s with clamped := (observed s).clamped }
  | some .cursor => (observed s).cursor
  | some .wp => (observed s).wp.setWidth 32
  | some .frameIndex => s.frameIndex
  | some .frameCount => s.frameCount
  | some .bsLen => s.bsLen
  | none => 0

/-- A host register read (44_host_commands.md R151). One in BUSY counts as a draw of a free value. -/
def readReg (number : Nat) (s : State) : State :=
  { s.reply (.register (regValue number s)) with draws := if s.st = .busy then s.draws + 1 else s.draws }

/-- A frame-window read (44_host_commands.md R160): REF in READY for an index of the frame, else a free byte, drawn anew at
each read (93_implementation_defined.md U13; log entry 7). -/
def readWindow (index : Nat) (s : State) : State :=
  if s.st = .ready ∧ index < Config.frameBytes then
    s.reply (.pixel (s.refByte index))
  else
    { s.reply (.pixel (Config.freeByte s.draws index)) with draws := s.draws + 1 }

/-- A host store into its bitstream memory: in IDLE only (20_memory.md R40, R41, R58); elsewhere the model has no such move
(70_reset_and_hazards.md R205; log entry 9). -/
def loadBs (offset : Offset) (value : Byte) (s : State) : Result :=
  if s.st = .idle then .next { s with bs := s.bs.set offset.toNat value } else .refused .bitstreamWriteInSession

/-- Power-on reset while the model runs (70_reset_and_hazards.md R200, 93_implementation_defined.md U22): registers take
their reset values, both buffers and the bitstream memory become unspecified anew; the host's turns and replies are not the
block's (log entry 10). -/
def powerOnReset (s : State) : State :=
  { State.reset with
    fb0 := { fill := .unknown s.draws, cells := [] }
    fb1 := { fill := .unknown (s.draws + 1), cells := [] }
    bs := { fill := .unknown (s.draws + 2), cells := [] }
    turns := s.turns
    replies := s.replies
    draws := s.draws + 3 }

/-- One host transaction. -/
def hostAct (op : HostOp) (s : State) : Result :=
  match op with
  | .writeReg number value => .next (writeReg number value s)
  | .readReg number => .next (readReg number s)
  | .readWindow index => .next (readWindow index s)
  | .loadBs offset value => loadBs offset value s
  | .powerOnReset => .next (powerOnReset s)

end Sys2Proof.Machine
end

