-- ==== Sys2Proof/Machine/Cycle.lean ====
section
/-! DEFINITION. The FBD's own move: an instruction step, frame completion, or waiting (40_instruction_cycle.md R95). -/

namespace Sys2Proof.Machine

/-- The FBD's move (40_instruction_cycle.md R95): in BUSY an instruction step while WP < 64000 and frame completion at
WP = 64000 (44_host_commands.md R148); in every other state the block does nothing (60_exceptions.md R180, R186;
93_implementation_defined.md U20; log entry 12). WP above 64000 is never held (10_state.md R12; log entry 11). -/
def fbdMove (s : State) : Result :=
  match s.st with
  | .busy =>
    if s.wp.toNat < Config.frameBytes then instrStep s
    else if s.wp.toNat = Config.frameBytes then .next (completeFrame s)
    else .fault .writePositionOutOfRange
  | .idle => .next s
  | .ready => .next s
  | .fault => .next s

end Sys2Proof.Machine
end

