-- ==== Sys2Proof/Machine/Step.lean ====
section
/-! DEFINITION. The step function: the agent whose turn it is moves (00_scope.md R6, 20_memory.md R56). -/

namespace Sys2Proof.Machine

/-- One step. With no host turn pending, or when the host yields, the FBD moves; otherwise the host's transaction is
performed (log entry 4). -/
def step (s : State) : Host.Outcome State Fault Refusal :=
  match s.turns with
  | [] => fbdMove s
  | .yield :: rest => fbdMove { s with turns := rest }
  | .act op :: rest => hostAct op { s with turns := rest }

/-- The state whose very next step fetches and runs the instruction of an opcode-table word: it stands for the host's
loading of BS and the accepted START and DECODE (70_reset_and_hazards.md R202; log entry 14). -/
def State.withFetchWord (s : State) (nbits w : Nat) : State := placeInstr (tableBytes nbits w) s

end Sys2Proof.Machine
end

