-- ==== Sys2Proof/Machine/HostProtocol.lean ====
section
/-! DEFINITION. The host's side of the protocol as lists of turns: the boot sequence from a movie file
(70_reset_and_hazards.md R202, 44_host_commands.md R163) and the choice of a command per tick (44_host_commands.md R161). The
container parser itself is the host's (00_scope.md R3); only what reaches the block is here. -/

namespace Sys2Proof.Machine

/-- CMD = START (10_state.md R26). -/
def startTurn : HostTurn := .act (.writeReg 0 1)

/-- CMD = DECODE (10_state.md R26). -/
def decodeTurn : HostTurn := .act (.writeReg 0 2)

/-- CMD = STOP (10_state.md R26). -/
def stopTurn : HostTurn := .act (.writeReg 0 3)

/-- The frame count: file bytes 0 to 3, the first least significant (20_memory.md R49, 70_reset_and_hazards.md R202). -/
def fileFrameCount (file : List Byte) : Word :=
  file.getD 3 0#8 ++ file.getD 2 0#8 ++ file.getD 1 0#8 ++ file.getD 0 0#8

/-- The bitstream of a movie file: the bytes from offset 772 on (20_memory.md R45). -/
def fileBitstream (file : List Byte) : List Byte := file.drop Config.headerBytes

/-- The stores that make bytes readable as BS from an offset on (70_reset_and_hazards.md R202 step 5). -/
def loadTurns (offset : Nat) : List Byte → List HostTurn
  | [] => []
  | b :: r => .act (.loadBs (BitVec.ofNat 32 offset) b) :: loadTurns (offset + 1) r

/-- Steps 2 to 7 of 70_reset_and_hazards.md R202. A file shorter than its header opens no session (44_host_commands.md R163);
neither does one whose bitstream is longer than BS_LEN can say (log entry 18). -/
def bootTurns (file : List Byte) : Option (List HostTurn) :=
  if file.length < Config.headerBytes then none
  else if 2 ^ 32 ≤ (fileBitstream file).length then none
  else
    some (loadTurns 0 (fileBitstream file) ++
      [.act (.writeReg 6 (BitVec.ofNat 32 (fileBitstream file).length)), .act (.writeReg 5 (fileFrameCount file)),
        startTurn])

/-- What the host does in a tick after polling ST (44_host_commands.md R161): wait in BUSY; in READY stop if an input signal
is set, else decode; in FAULT read STATUS and close the session; nothing in IDLE. -/
def tickTurns (inputSignal : Bool) : St → List HostTurn
  | .busy => [.yield]
  | .ready => if inputSignal then [stopTurn] else [decodeTurn]
  | .fault => [.act (.readReg 1), stopTurn]
  | .idle => []

end Sys2Proof.Machine
end

