-- ==== Sys2Proof/Safety.lean ====
section
/-! DEFINITION. What counts as a safe state and a safe run, in the terms the statements use: the invariants of 10_state.md
R32, the stronger inductive invariant of the model, reachability from reset under any host, what an instruction leaves
alone, and agreement of two states on the inputs of a frame (40_instruction_cycle.md R109). -/

namespace Sys2Proof

open Machine

/-- A run of the machine: `k` steps, stopping at the first stop. -/
def runSteps (k : Nat) (s : State) : Result := Host.Core.run Sys2Proof.core k s

/-- The states a run from power-on reset reaches, whatever turns the host takes. -/
def Reachable (s : State) : Prop :=
  ∃ (turns : List HostTurn) (k : Nat), runSteps k { State.reset with turns := turns } = .next s

/-- The invariants of 10_state.md R32, as the spec words them. -/
structure StatedInvariants (s : State) : Prop where
  wp_range : s.wp.toNat ≤ 64000
  cursor_range : s.st = .ready ∨ s.st = .busy ∨ (s.st = .fault ∧ s.faultCode ≠ .config) →
    s.cursor.toNat ≤ s.bsLen.toNat
  ready_shape : s.st = .ready →
    (s.wp.toNat = 0 ∨ s.wp.toNat = 64000) ∧ s.frameIndex.toNat < s.frameCount.toNat - 1 ∧ s.faultCode = .none
  fault_coded : s.st = .fault → s.faultCode ≠ .none
  eom_idle : s.eom = true → s.st = .idle

/-- The inductive invariant: R32 and what keeps it inductive. In READY and BUSY a session is open: the index is short of the
last frame, no fault is recorded, and both buffers have been zeroed (44_host_commands.md R146, R148); a memory is in its
canonical form and lists no address outside its space (20_memory.md R40, R42). -/
structure Inv (s : State) : Prop where
  wp_le : s.wp.toNat ≤ 64000
  cursor_le : s.st = .ready ∨ s.st = .busy ∨ (s.st = .fault ∧ s.faultCode ≠ .config) →
    s.cursor.toNat ≤ s.bsLen.toNat
  ready_wp : s.st = .ready → s.wp.toNat = 0 ∨ s.wp.toNat = 64000
  index_lt : s.st = .ready ∨ s.st = .busy → s.frameIndex.toNat + 1 < s.frameCount.toNat
  open_code : s.st = .ready ∨ s.st = .busy → s.faultCode = .none
  fault_code : s.st = .fault → s.faultCode ≠ .none
  eom_end : s.eom = true → s.st = .idle ∧ s.faultCode = .none
  open_zeroed : s.st = .ready ∨ s.st = .busy → s.fb0.fill = .zero ∧ s.fb1.fill = .zero
  fb0_wf : s.fb0.wf ∧ s.fb0.within 64000
  fb1_wf : s.fb1.wf ∧ s.fb1.within 64000
  bs_wf : s.bs.wf ∧ s.bs.within (2 ^ 32)

/-- The three ways a session ends (44_host_commands.md R162). -/
inductive SessionEnd where
  /-- FRAME_COUNT − 1 frames were decoded. -/
  | endOfMovie
  /-- The host stopped it after FRAME_INDEX frames. -/
  | stopped
  /-- It faulted, or START was refused, and STOP closed it. -/
  | faulted
  deriving DecidableEq, Repr

/-- How the session that is over ended, by the table of 44_host_commands.md R162; none while ST is not IDLE, where a session is
not over. -/
def sessionEnd (s : State) : Option SessionEnd :=
  match s.st with
  | .idle =>
    if s.faultCode = .none then some (if s.eom then .endOfMovie else .stopped)
    else if s.eom then none else some .faulted
  | .ready => none
  | .busy => none
  | .fault => none

/-- What no committing instruction changes: everything but OUT, WP, CURSOR and CLAMPED (10_state.md R11, 20_memory.md R43,
R46). -/
structure InstrFrame (s t : State) : Prop where
  reference : t.fb s.role = s.fb s.role
  role : t.role = s.role
  st : t.st = s.st
  frameIndex : t.frameIndex = s.frameIndex
  frameCount : t.frameCount = s.frameCount
  bsLen : t.bsLen = s.bsLen
  eom : t.eom = s.eom
  faultCode : t.faultCode = s.faultCode
  bs : t.bs = s.bs
  turns : t.turns = s.turns
  replies : t.replies = s.replies
  draws : t.draws = s.draws
  decodeFrom : t.decodeFrom = s.decodeFrom

/-- The clamped count of a copy (40_instruction_cycle.md R100), in the spec's own words. -/
def copyCount (length : Nat) (s : State) : Nat := min length (64000 - s.wp.toNat)

/-- `t` is `s` after a copy of `length` bytes, clamped, by an instruction of `size` bytes: byte `i` of the destination is
`source i`, every other byte of OUT is as before, WP, CURSOR and CLAMPED are committed, and the rest is unchanged
(40_instruction_cycle.md R104). -/
structure Copied (source : Nat → Byte) (length size : Nat) (s t : State) : Prop where
  written : ∀ i, i < copyCount length s → t.outByte (s.wp.toNat + i) = source i
  elsewhere : ∀ a, a < s.wp.toNat ∨ s.wp.toNat + copyCount length s ≤ a → t.outByte a = s.outByte a
  wp : t.wp.toNat = s.wp.toNat + copyCount length s
  cursor : t.cursor = s.cursor + BitVec.ofNat 32 size
  clamped : t.clamped = (s.clamped || decide (copyCount length s < length))
  frame : InstrFrame s t

/-- The length field of a copy instruction, before the clamp (40_instruction_cycle.md R100); LIT and a reserved byte have none. -/
def Instr.copyLength : Instr → Option Nat
  | .lit _ => none
  | .tcs _ length => some length.toNat
  | .tcl _ length => some length.toNat
  | .scs _ length => some length.toNat
  | .scl _ length => some length.toNat
  | .sca _ length => some length.toNat
  | .reserved _ => none

/-- The present CURSOR, WP and CLAMPED are those of some moment of the DECODE as it is replayed from its acceptance: what a
register read in BUSY may show takes in the present values (44_host_commands.md R151). -/
def OnTheTrail (s : State) : Prop :=
  s.st = .busy → ∃ k, (decodeMoment k s).cursor = s.cursor ∧ (decodeMoment k s).wp = s.wp ∧
    (decodeMoment k s).clamped = s.clamped

/-- Two states give a frame the same inputs and the same part built so far: BS_LEN, BS below it, CURSOR, REF, WP and OUT below WP
agree byte by byte (40_instruction_cycle.md R109), with the flag, the state and the code. ROLE, FRAME_INDEX, OUT from WP on and
all else may differ. -/
structure SameFrameInputs (s t : State) : Prop where
  bsBytes : ∀ a, a < s.bsLen.toNat → t.bs.byte a = s.bs.byte a
  bsLen : t.bsLen = s.bsLen
  cursor : t.cursor = s.cursor
  wp : t.wp = s.wp
  st : t.st = s.st
  clamped : t.clamped = s.clamped
  faultCode : t.faultCode = s.faultCode
  refBytes : ∀ a, a < 64000 → t.refByte a = s.refByte a
  outBytes : ∀ a, a < s.wp.toNat → t.outByte a = s.outByte a

end Sys2Proof
end

