-- ==== Sys2Proof/Certificates/Slice0/Obligations.lean ====
section
/-! DEFINITION. The statements for the provers. A state in which the FBD moves next has no host turn pending; inside a DECODE
it has ST = BUSY. -/

open Sys2Proof Sys2Proof.Machine

/-! ### Encoding -/

/-- O1. 30_encoding.md R84 with R73 to R78: the assembled bytes of every well-formed instruction decode to it, whatever
bytes follow. For RESERVED, which has no assembly formula and no size (R80), that one byte is taken and the others are the
rest is the model's choice (log entry 13, DEDUCED). -/
def Obligations.DecodeOfEncodeIsIdentity : Prop :=
  ∀ (i : Instr) (rest : List Byte), i.wf = true → decode (encode i ++ rest) = .ok (i, rest)

/-- O2. The other direction: what the decoder answers is well-formed and encodes to exactly the bytes it took. For RESERVED,
which has no size and consumes nothing (30_encoding.md R80), that the decoder takes one byte is the model's choice (log entry
13, DEDUCED); CURSOR does not move (O8). -/
def Obligations.EncodeOfDecodeIsIdentity : Prop :=
  ∀ (l : List Byte) (i : Instr) (rest : List Byte), decode l = .ok (i, rest) → i.wf = true ∧ encode i ++ rest = l

/-- O3. 30_encoding.md R70: kind and size are decided by the first byte alone, by the ranges of its table; the bytes after
the first do not matter. -/
def Obligations.FirstByteDecidesKindAndSize : Prop :=
  (∀ b : Byte,
    (b.toNat ≤ 0x3F → classify b = .tcs ∧ (classify b).size = some 3) ∧
    (0x40 ≤ b.toNat → b.toNat ≤ 0x7F → classify b = .tcl ∧ (classify b).size = some 4) ∧
    (0x80 ≤ b.toNat → b.toNat ≤ 0x9F → classify b = .scs ∧ (classify b).size = some 2) ∧
    (0xA0 ≤ b.toNat → b.toNat ≤ 0xBF → classify b = .scl ∧ (classify b).size = some 3) ∧
    (0xC0 ≤ b.toNat → b.toNat ≤ 0xDF → classify b = .sca ∧ (classify b).size = some 4) ∧
    (0xE0 ≤ b.toNat → b.toNat ≤ 0xFE → classify b = .reserved ∧ (classify b).size = none) ∧
    (b.toNat = 0xFF → classify b = .lit ∧ (classify b).size = some 2)) ∧
  ∀ (b : Byte) (l : List Byte) (i : Instr) (rest : List Byte), decode (b :: l) = .ok (i, rest) →
    i.kind = classify b ∧
    ∀ size, (classify b).size = some size → (b :: l).length = size + rest.length ∧ (b :: l).drop size = rest

/-- O4. 30_encoding.md R73 to R78 with 20_memory.md R48: the fields are the document's masks and shifts of the word whose
first byte is most significant, as exact numbers; the short self copy's distance never exceeds 127. -/
def Obligations.FieldsAreMasksOfTheWord : Prop :=
  ∀ (b0 b1 b2 b3 : Byte) (r : List Byte),
    let w2 := b0.toNat * 256 + b1.toNat
    let w3 := b0.toNat * 65536 + b1.toNat * 256 + b2.toNat
    let w4 := b0.toNat * 16777216 + b1.toNat * 65536 + b2.toNat * 256 + b3.toNat
    (classify b0 = .lit → ∃ v, decode (b0 :: b1 :: r) = .ok (.lit v, r) ∧ v.toNat = w2 &&& 0xFF) ∧
    (classify b0 = .tcs → ∃ p l, decode (b0 :: b1 :: b2 :: r) = .ok (.tcs p l, r) ∧
      l.toNat = w3 &&& 0x3F ∧ p.toNat = (w3 >>> 6) &&& 0xFFFF) ∧
    (classify b0 = .tcl → ∃ p l, decode (b0 :: b1 :: b2 :: b3 :: r) = .ok (.tcl p l, r) ∧
      l.toNat = w4 &&& 0x3FFF ∧ p.toNat = (w4 >>> 14) &&& 0xFFFF) ∧
    (classify b0 = .scs → ∃ d l, decode (b0 :: b1 :: r) = .ok (.scs d l, r) ∧
      l.toNat = w2 &&& 0x3F ∧ d.toNat = (w2 >>> 6) &&& 0xFF ∧ d.toNat ≤ 127) ∧
    (classify b0 = .scl → ∃ d l, decode (b0 :: b1 :: b2 :: r) = .ok (.scl d l, r) ∧
      l.toNat = w3 &&& 0xFF ∧ d.toNat = (w3 >>> 8) &&& 0x1FFF) ∧
    (classify b0 = .sca → ∃ p l, decode (b0 :: b1 :: b2 :: b3 :: r) = .ok (.sca p l, r) ∧
      l.toNat = w4 &&& 0x1FFF ∧ p.toNat = (w4 >>> 13) &&& 0xFFFF)

/-- O5. Six words of 95_test_vectors.md section 2.2, one of each instruction, decode as that table says. The seventh clause,
that the byte E5 decodes to RESERVED with no rest, is the model's choice (log entry 13, DEDUCED): section 3.5 lists its
fault (O8) and no decoding. -/
def Obligations.ListedWordsDecodeAsListed : Prop :=
  decode [0xFF, 0x07] = .ok (.lit 7, []) ∧
  decode [0x3E, 0x7F, 0xC1] = .ok (.tcs 63999 1, []) ∧
  decode [0x6F, 0xFF, 0x7A, 0x03] = .ok (.tcl 49149 14851, []) ∧
  decode [0x9F, 0xFF] = .ok (.scs 127 63, []) ∧
  decode [0xA1, 0x40, 0xC8] = .ok (.scl 320 200, []) ∧
  decode [0xDF, 0x3F, 0xDF, 0xFF] = .ok (.sca 63998 8191, []) ∧
  decode [0xE5] = .ok (.reserved 0xE5, [])

/-! ### The instruction step -/

/-- O6. 40_instruction_cycle.md R95, R96 to R99, R106. With no host turn pending a step is the FBD's own move, whatever that
is (instruction step, fetch fault, frame completion, waiting); so it is when the host yields, of the state with that turn
consumed (turns are the model's own: log entry 4). When the bytes of BS at CURSOR, all below BS_LEN, decode to an instruction,
the step is exec of the instruction. -/
def Obligations.StepRunsDecodedInstruction : Prop :=
  (∀ s : State, s.turns = [] → step s = fbdMove s) ∧
  (∀ (s : State) (turns : List HostTurn), s.turns = .yield :: turns → step s = fbdMove { s with turns := turns }) ∧
  ∀ (s : State) (bytes : List Byte) (i : Instr) (rest : List Byte),
    s.st = .busy → s.wp.toNat < 64000 →
    (∀ k, k < bytes.length → s.bs.byte (s.cursor.toNat + k) = bytes.getD k 0) →
    s.cursor.toNat + bytes.length ≤ s.bsLen.toNat →
    decode bytes = .ok (i, rest) →
    (s.turns = [] → step s = exec i s) ∧
    (∀ turns, s.turns = .yield :: turns → step s = exec i { s with turns := turns })

/-- O7. 60_exceptions.md R172: F_UNDERRUN when the first byte, or a later byte of the classified instruction, lies at or
beyond BS_LEN; FAULT_CODE and ST are written and nothing else. -/
def Obligations.UnderrunWhenBytesAreMissing : Prop :=
  ∀ (s : State), s.turns = [] → s.st = .busy → s.wp.toNat < 64000 →
    (s.bsLen.toNat ≤ s.cursor.toNat → step s = .next { s with faultCode := .underrun, st := .fault }) ∧
    (∀ size, s.cursor.toNat < s.bsLen.toNat → (classify (s.bs.byte s.cursor.toNat)).size = some size →
      s.bsLen.toNat < s.cursor.toNat + size → step s = .next { s with faultCode := .underrun, st := .fault })

/-- O8. 60_exceptions.md R173 (30_encoding.md R80): a first byte 0xE0 to 0xFE raises F_RESERVED, before any other byte is
looked at, even as the last byte of the bitstream; nothing is written or consumed. The row's meaning answers that entry
for every such byte. -/
def Obligations.ReservedFirstByteFaults : Prop :=
  (∀ (b0 : BitVec 8) (s : State), exec (.reserved b0) s = .next { s with faultCode := .reserved, st := .fault }) ∧
  ∀ (s : State), s.turns = [] → s.st = .busy → s.wp.toNat < 64000 → s.cursor.toNat < s.bsLen.toNat →
    0xE0 ≤ (s.bs.byte s.cursor.toNat).toNat → (s.bs.byte s.cursor.toNat).toNat ≤ 0xFE →
    step s = .next { s with faultCode := .reserved, st := .fault }

/-- O9. 60_exceptions.md R178: at most one fault, the first that applies in the order first byte missing, reserved first
byte, later byte missing, the instruction's own range fault; the first three are raised whenever they apply. -/
def Obligations.FirstApplicableFaultIsRaised : Prop :=
  ∀ (s : State), s.turns = [] → s.st = .busy → s.wp.toNat < 64000 →
    let kind := classify (s.bs.byte s.cursor.toNat)
    ∃ t, step s = .next t ∧
      (t.st = .fault → t.faultCode =
        if s.bsLen.toNat ≤ s.cursor.toNat then .underrun
        else match kind.size with
          | none => .reserved
          | some size =>
            if s.bsLen.toNat < s.cursor.toNat + size then .underrun
            else match kind with
              | .tcs | .tcl => .refRange
              | .scs | .scl => .backRange
              | .sca => .absRange
              | .lit | .reserved => .none) ∧
      (s.bsLen.toNat ≤ s.cursor.toNat ∨ kind.size = none ∨
          (∃ size, kind.size = some size ∧ s.bsLen.toNat < s.cursor.toNat + size) →
        t.st = .fault)

/-- O10. 41_literal.md R115, 40_instruction_cycle.md R103: LIT stores its value at the write position, advances WP by 1 and
CURSOR by 2, sets no flag, and changes nothing else. -/
def Obligations.LiteralWritesOnePixel : Prop :=
  ∀ (v : BitVec 8) (s : State), s.wp.toNat < 64000 →
    ∃ t, exec (.lit v) s = .next t ∧ t.wp.toNat = s.wp.toNat + 1 ∧ t.cursor = s.cursor + 2#32 ∧ t.clamped = s.clamped ∧
      (∀ a, t.outByte a = if a = s.wp.toNat then v else s.outByte a) ∧ InstrFrame s t

/-- O11. 42_temporal_copy.md R120, for TCS and TCL: the clamped count of bytes from REF at `position` goes to the write
position; a source range leaving REF is F_REF_RANGE and nothing else changes. -/
def Obligations.TemporalCopiesFollowTheirRule : Prop :=
  (∀ (position : BitVec 16) (length : BitVec 6) (s : State),
    (copyCount length.toNat s = 0 ∨ position.toNat + copyCount length.toNat s ≤ 64000 →
      ∃ t, exec (.tcs position length) s = .next t ∧
        Copied (fun i => s.refByte (position.toNat + i)) length.toNat 3 s t) ∧
    (0 < copyCount length.toNat s → 64000 < position.toNat + copyCount length.toNat s →
      exec (.tcs position length) s = .next { s with faultCode := .refRange, st := .fault })) ∧
  (∀ (position : BitVec 16) (length : BitVec 14) (s : State),
    (copyCount length.toNat s = 0 ∨ position.toNat + copyCount length.toNat s ≤ 64000 →
      ∃ t, exec (.tcl position length) s = .next t ∧
        Copied (fun i => s.refByte (position.toNat + i)) length.toNat 4 s t) ∧
    (0 < copyCount length.toNat s → 64000 < position.toNat + copyCount length.toNat s →
      exec (.tcl position length) s = .next { s with faultCode := .refRange, st := .fault }))

/-- O12. 43_self_copy.md R130 in the closed form of 40_instruction_cycle.md R108, for SCS and SCL: byte i of the destination
is OUT[P − distance + (i mod distance)] of the buffer before; distance 0 or above WP is F_BACK_RANGE. -/
def Obligations.BackwardCopiesRepeatThePattern : Prop :=
  (∀ (distance : BitVec 8) (length : BitVec 6) (s : State),
    (copyCount length.toNat s = 0 ∨ (1 ≤ distance.toNat ∧ distance.toNat ≤ s.wp.toNat) →
      ∃ t, exec (.scs distance length) s = .next t ∧
        Copied (fun i => s.outByte (s.wp.toNat - distance.toNat + i % distance.toNat)) length.toNat 2 s t) ∧
    (0 < copyCount length.toNat s → distance.toNat = 0 ∨ s.wp.toNat < distance.toNat →
      exec (.scs distance length) s = .next { s with faultCode := .backRange, st := .fault })) ∧
  (∀ (distance : BitVec 13) (length : BitVec 8) (s : State),
    (copyCount length.toNat s = 0 ∨ (1 ≤ distance.toNat ∧ distance.toNat ≤ s.wp.toNat) →
      ∃ t, exec (.scl distance length) s = .next t ∧
        Copied (fun i => s.outByte (s.wp.toNat - distance.toNat + i % distance.toNat)) length.toNat 3 s t) ∧
    (0 < copyCount length.toNat s → distance.toNat = 0 ∨ s.wp.toNat < distance.toNat →
      exec (.scl distance length) s = .next { s with faultCode := .backRange, st := .fault }))

/-- O13. 43_self_copy.md R133, 60_exceptions.md R176: SCA copies a source range lying entirely below WP; otherwise
F_ABS_RANGE and nothing else changes. -/
def Obligations.AbsoluteSelfCopyFollowsItsRule : Prop :=
  ∀ (position : BitVec 16) (length : BitVec 13) (s : State),
    (copyCount length.toNat s = 0 ∨ position.toNat + copyCount length.toNat s ≤ s.wp.toNat →
      ∃ t, exec (.sca position length) s = .next t ∧
        Copied (fun i => s.outByte (position.toNat + i)) length.toNat 4 s t) ∧
    (0 < copyCount length.toNat s → s.wp.toNat < position.toNat + copyCount length.toNat s →
      exec (.sca position length) s = .next { s with faultCode := .absRange, st := .fault })

/-- O14. 20_memory.md R55, for the three self copies: the load of byte i sees the stores of the bytes before it, so AFTER
the copy every destination byte equals the byte at its source index. -/
def Obligations.SelfCopyLoadsSeeEarlierStores : Prop :=
  (∀ (distance : BitVec 8) (length : BitVec 6) (s : State), 1 ≤ distance.toNat → distance.toNat ≤ s.wp.toNat →
    ∃ t, exec (.scs distance length) s = .next t ∧ ∀ i, i < copyCount length.toNat s →
      t.outByte (s.wp.toNat + i) = t.outByte (s.wp.toNat - distance.toNat + i)) ∧
  (∀ (distance : BitVec 13) (length : BitVec 8) (s : State), 1 ≤ distance.toNat → distance.toNat ≤ s.wp.toNat →
    ∃ t, exec (.scl distance length) s = .next t ∧ ∀ i, i < copyCount length.toNat s →
      t.outByte (s.wp.toNat + i) = t.outByte (s.wp.toNat - distance.toNat + i)) ∧
  (∀ (position : BitVec 16) (length : BitVec 13) (s : State),
    position.toNat + copyCount length.toNat s ≤ s.wp.toNat →
    ∃ t, exec (.sca position length) s = .next t ∧ ∀ i, i < copyCount length.toNat s →
      t.outByte (s.wp.toNat + i) = t.outByte (position.toNat + i))

/-- O15. 40_instruction_cycle.md R101, first half (30_encoding.md R81): a copy of length 0 is a no-op whatever its position
or distance: CURSOR advances by the size and nothing else changes. -/
def Obligations.ZeroLengthCopiesAreNoOps : Prop :=
  ∀ (s : State) (position : BitVec 16) (distance8 : BitVec 8) (distance13 : BitVec 13),
    exec (.tcs position 0) s = .next { s with cursor := s.cursor + 3#32 } ∧
    exec (.tcl position 0) s = .next { s with cursor := s.cursor + 4#32 } ∧
    exec (.scs distance8 0) s = .next { s with cursor := s.cursor + 2#32 } ∧
    exec (.scl distance13 0) s = .next { s with cursor := s.cursor + 3#32 } ∧
    exec (.sca position 0) s = .next { s with cursor := s.cursor + 4#32 }

/-- O16. 40_instruction_cycle.md R100: a copy that commits with a length beyond the space left fills the frame exactly,
sets CLAMPED and consumes its whole size; one that fits leaves CLAMPED alone. Any instruction but LIT; `length` is its
length field. -/
def Obligations.ClampFillsTheFrameExactly : Prop :=
  ∀ (i : Instr) (length : Nat) (s t : State), s.wp.toNat < 64000 →
    (∃ p l, i = .tcs p l ∧ length = l.toNat) ∨ (∃ p l, i = .tcl p l ∧ length = l.toNat) ∨
      (∃ d l, i = .scs d l ∧ length = l.toNat) ∨ (∃ d l, i = .scl d l ∧ length = l.toNat) ∨
      (∃ p l, i = .sca p l ∧ length = l.toNat) →
    exec i s = .next t → t.st = .busy →
    t.cursor = s.cursor + BitVec.ofNat 32 ((i.kind.size).getD 0) ∧
    (64000 - s.wp.toNat < length → t.wp.toNat = 64000 ∧ t.clamped = true) ∧
    (length ≤ 64000 - s.wp.toNat → t.wp.toNat = s.wp.toNat + length ∧ t.clamped = s.clamped)

/-- O17. 60_exceptions.md R179: whatever instruction a step fetches or fails to fetch, a fault writes FAULT_CODE and ST and
nothing else: no byte of OUT, WP, CURSOR or CLAMPED. -/
def Obligations.InstructionFaultsArePrecise : Prop :=
  ∀ (s t : State), s.turns = [] → s.st = .busy → s.wp.toNat < 64000 → step s = .next t → t.st = .fault →
    t = { s with faultCode := t.faultCode, st := .fault } ∧ t.faultCode ≠ .none ∧ t.faultCode ≠ .config

/-- O18. 20_memory.md R43: no instruction writes REF. -/
def Obligations.ReferenceFrameIsReadOnly : Prop :=
  ∀ (i : Instr) (s t : State), exec i s = .next t → t.role = s.role ∧ t.ref = s.ref ∧ ∀ a, t.refByte a = s.refByte a

/-- O19. 20_memory.md R46: no instruction changes FRAME_COUNT, BS_LEN, BS, EOM, FRAME_INDEX or ROLE, nor any of the model's own
fields, and ST changes only by a fault. CURSOR, WP and CLAMPED, which the host also reads, are the instruction's own
effect (R46 excepts them). -/
def Obligations.InstructionsKeepTheSessionRegisters : Prop :=
  ∀ (i : Instr) (s t : State), exec i s = .next t →
    t.frameCount = s.frameCount ∧ t.bsLen = s.bsLen ∧ t.bs = s.bs ∧ t.eom = s.eom ∧ t.frameIndex = s.frameIndex ∧
    t.role = s.role ∧ t.turns = s.turns ∧ t.replies = s.replies ∧ t.draws = s.draws ∧ t.decodeFrom = s.decodeFrom ∧
    ((t.st = s.st ∧ t.faultCode = s.faultCode) ∨ (t.st = .fault ∧ t.faultCode ≠ .none))

/-- O20. 40_instruction_cycle.md R112: the FBD's own move either advances CURSOR by the size of the instruction at CURSOR or
leaves it (a fault, frame completion, waiting); a host transaction leaves it, except an accepted START and a reset, which
set it to 0. -/
def Obligations.CursorMovesOnlyForward : Prop :=
  (∀ (s t : State), s.turns = [] → step s = .next t →
    t.cursor = s.cursor ∨
    ∃ size, (classify (s.bs.byte s.cursor.toNat)).size = some size ∧
      t.cursor.toNat = s.cursor.toNat + size ∧ t.cursor.toNat ≤ s.bsLen.toNat) ∧
  (∀ (op : HostOp) (s t : State) (turns : List HostTurn), s.turns = .act op :: turns → step s = .next t →
    t.cursor = s.cursor ∨
    (t.cursor = 0 ∧ ((op = .writeReg 0 1 ∧ s.st = .idle) ∨ op = .powerOnReset)))

/-- O21. 30_encoding.md R83 with 42_temporal_copy.md R122 and 43_self_copy.md R132: a short form and the long form with the
same operands have the same effect; only the size consumed differs. -/
def Obligations.ShortAndLongFormsAgree : Prop :=
  (∀ (position : BitVec 16) (length : BitVec 6) (s : State),
    (copyCount length.toNat s = 0 ∨ position.toNat + copyCount length.toNat s ≤ 64000 →
      ∃ t, exec (.tcs position length) s = .next t ∧
        exec (.tcl position (length.setWidth 14)) s = .next { t with cursor := s.cursor + 4#32 }) ∧
    (0 < copyCount length.toNat s → 64000 < position.toNat + copyCount length.toNat s →
      exec (.tcs position length) s = exec (.tcl position (length.setWidth 14)) s)) ∧
  (∀ (distance : BitVec 8) (length : BitVec 6) (s : State),
    (copyCount length.toNat s = 0 ∨ (1 ≤ distance.toNat ∧ distance.toNat ≤ s.wp.toNat) →
      ∃ t, exec (.scs distance length) s = .next t ∧
        exec (.scl (distance.setWidth 13) (length.setWidth 8)) s = .next { t with cursor := s.cursor + 3#32 }) ∧
    (0 < copyCount length.toNat s → distance.toNat = 0 ∨ s.wp.toNat < distance.toNat →
      exec (.scs distance length) s = exec (.scl (distance.setWidth 13) (length.setWidth 8)) s))

/-- O22. 43_self_copy.md R133, corner cases: an SCA that does not fault has the effect of the SCL with distance WP −
position and the same length, where that SCL exists. -/
def Obligations.AbsoluteCopyEqualsBackwardCopy : Prop :=
  ∀ (position : BitVec 16) (length : BitVec 13) (distance : BitVec 13) (short : BitVec 8) (s : State),
    position.toNat + distance.toNat = s.wp.toNat → short.toNat = length.toNat →
    position.toNat + copyCount length.toNat s ≤ s.wp.toNat → 0 < copyCount length.toNat s →
    ∃ t, exec (.sca position length) s = .next t ∧
      ∃ u, exec (.scl distance short) s = .next u ∧
        (∀ a, u.outByte a = t.outByte a) ∧ u.wp = t.wp ∧ u.clamped = t.clamped ∧ u.cursor + 1#32 = t.cursor ∧
        InstrFrame s t ∧ InstrFrame s u

/-! ### A whole frame -/

/-- O23. 44_host_commands.md R148: at WP = 64000 the roles swap, FRAME_INDEX advances, and the movie ends exactly when the
index has reached FRAME_COUNT − 1; no data moves and nothing else changes. -/
def Obligations.FrameCompletionSwapsRoles : Prop :=
  ∀ (s : State), s.turns = [] → s.st = .busy → s.wp.toNat = 64000 → s.frameIndex.toNat + 1 < s.frameCount.toNat →
    (s.frameIndex.toNat + 2 = s.frameCount.toNat →
      step s = .next { s with role := s.role.other, frameIndex := s.frameIndex + 1#32, eom := true, st := .idle }) ∧
    (s.frameIndex.toNat + 2 ≠ s.frameCount.toNat →
      step s = .next { s with role := s.role.other, frameIndex := s.frameIndex + 1#32, st := .ready })

/-- O24. 40_instruction_cycle.md R109: a frame is a function of the contents of BS, the value of CURSOR and the contents of REF.
First, two states of a DECODE that agree on them, on BS_LEN and on the part built so far, whatever else they hold (stale OUT
bytes, ROLE, FRAME_INDEX), stay in agreement for as long as the first is decoding or has faulted: whether a frame completes,
faults, and with which CLAMPED. Second, whatever the two values of BS_LEN, and with BS agreeing on the bytes consumed alone,
two decodes that both complete hold the same frame and end at the same CURSOR with the same CLAMPED. -/
def Obligations.FrameDependsOnlyOnItsInputs : Prop :=
  (∀ (k : Nat) (s t s' : State), SameFrameInputs s t → s.turns = [] → t.turns = [] →
    runSteps k s = .next s' → s'.st = .busy ∨ s'.st = .fault →
    ∃ t', runSteps k t = .next t' ∧ SameFrameInputs s' t') ∧
  ∀ (j k : Nat) (s t s' t' : State), s.turns = [] → t.turns = [] → s.st = .busy → t.st = .busy →
    t.cursor = s.cursor → t.wp = s.wp → t.clamped = s.clamped →
    (∀ a, a < 64000 → t.refByte a = s.refByte a) → (∀ a, a < s.wp.toNat → t.outByte a = s.outByte a) →
    runSteps j s = .next s' → s'.st = .busy → s'.wp.toNat = 64000 →
    runSteps k t = .next t' → t'.st = .busy → t'.wp.toNat = 64000 →
    (∀ a, s.cursor.toNat ≤ a → a < s'.cursor.toNat → t.bs.byte a = s.bs.byte a) →
    (∀ a, a < 64000 → t'.outByte a = s'.outByte a) ∧ t'.cursor = s'.cursor ∧ t'.clamped = s'.clamped

/-- O25. 40_instruction_cycle.md R110: every DECODE ends. From any state of a DECODE with no host turn pending, after at most
half the remaining bitstream's bytes and one more step, the frame is complete or a fault has been raised; and with any host
turns pending but a reset and a BS write (yields, register reads and writes, window reads), each such turn costs at most one
step more. -/
def Obligations.EveryDecodeEnds : Prop :=
  let Ended (s t : State) : Prop :=
    (t.st = .fault ∧ t.role = s.role ∧ t.frameIndex = s.frameIndex) ∨
      ((t.st = .ready ∨ t.st = .idle) ∧ t.wp.toNat = 64000 ∧ t.role = s.role.other ∧
        t.frameIndex = s.frameIndex + 1#32)
  (∀ (s : State), s.turns = [] → s.st = .busy → s.wp.toNat ≤ 64000 →
    ∃ t, runSteps ((s.bsLen.toNat - s.cursor.toNat) / 2 + 1) s = .next t ∧ Ended s t) ∧
  ∀ (s : State), (∀ op, HostTurn.act op ∈ s.turns → op ≠ .powerOnReset ∧ ∀ offset value, op ≠ .loadBs offset value) →
    s.st = .busy → s.wp.toNat ≤ 64000 →
    ∃ n t, n ≤ (s.bsLen.toNat - s.cursor.toNat) / 2 + 1 + s.turns.length ∧ runSteps n s = .next t ∧ Ended s t

/-! ### Invariants and safety -/

/-- O26. The inductive invariant (10_state.md R32 and the model's own clauses on memories: log entries 2 and 3) holds after
power-on reset, whatever turns the host will take (log entry 4). -/
def Obligations.ResetMeetsTheInvariant : Prop :=
  ∀ turns : List HostTurn, Inv { State.reset with turns := turns }

/-- O27. Every step keeps the inductive invariant, in every state that meets it: the FBD's and the host's (its clauses on
memories are the model's: log entries 2 and 3). -/
def Obligations.EveryStepKeepsTheInvariant : Prop :=
  ∀ (s t : State), Inv s → step s = .next t → Inv t

/-- O28. 10_state.md R32: its five invariants hold in every reachable state. -/
def Obligations.ReachableStatesMeetTheStatedInvariants : Prop :=
  ∀ s : State, Reachable s → StatedInvariants s

/-- O29. 40_instruction_cycle.md R111: from WP < 64000 and CURSOR ≤ BS_LEN an instruction step answers a next state (no access
outside a frame is attempted), WP ≤ 64000 and CURSOR ≤ BS_LEN hold after it, and no byte of OUT outside the frame or
below WP is written. -/
def Obligations.EveryAccessStaysInRange : Prop :=
  ∀ (s : State), s.turns = [] → s.st = .busy → s.wp.toNat < 64000 → s.cursor.toNat ≤ s.bsLen.toNat →
    ∃ t, step s = .next t ∧ t.wp.toNat ≤ 64000 ∧ s.wp.toNat ≤ t.wp.toNat ∧ t.cursor.toNat ≤ t.bsLen.toNat ∧
      ∀ a, a < s.wp.toNat ∨ t.wp.toNat ≤ a → t.outByte a = s.outByte a

/-- O30. No step from a state of the invariant stops, except on a host write of the bitstream memory outside IDLE, which
the model refuses (70_reset_and_hazards.md R205, 93_implementation_defined.md U19; log entry 9). -/
def Obligations.OnlyAHostBitstreamWriteIsRefused : Prop :=
  ∀ (s : State), Inv s →
    (∃ t, step s = .next t) ∨
    (step s = .refused .bitstreamWriteInSession ∧ s.st ≠ .idle ∧
      ∃ offset value turns, s.turns = .act (.loadBs offset value) :: turns)

/-- O31. The block waits: with no host turn pending and ST not BUSY, a step changes nothing (60_exceptions.md R180, R186;
93_implementation_defined.md U20). -/
def Obligations.BlockWaitsForTheHost : Prop :=
  ∀ (s : State), s.turns = [] → s.st ≠ .busy → step s = .next s

/-! ### The host -/

/-- O32. 10_state.md R31, 44_host_commands.md R146: an accepted START with FRAME_COUNT ≥ 2 zeroes both buffers and sets the
session's values; FRAME_COUNT and BS_LEN are unchanged. -/
def Obligations.StartOpensABlankSession : Prop :=
  ∀ (s : State) (turns : List HostTurn), s.turns = .act (.writeReg 0 1) :: turns → s.st = .idle →
    2 ≤ s.frameCount.toNat →
    ∃ t, step s = .next t ∧ (∀ a, t.fb0.byte a = 0) ∧ (∀ a, t.fb1.byte a = 0) ∧ t.role = .fb0 ∧ t.cursor = 0 ∧
      t.wp = 0 ∧ t.frameIndex = 0 ∧ t.clamped = false ∧ t.eom = false ∧ t.faultCode = .none ∧ t.st = .ready ∧
      t.frameCount = s.frameCount ∧ t.bsLen = s.bsLen ∧ t.bs = s.bs ∧ t.turns = turns ∧ t.replies = s.replies

/-- O33. 60_exceptions.md R177, 44_host_commands.md R146: START with FRAME_COUNT 0 or 1 raises F_CONFIG; besides CLAMPED, EOM,
FAULT_CODE and ST nothing changes. -/
def Obligations.StartRefusesAnEmptyMovie : Prop :=
  ∀ (s : State) (turns : List HostTurn), s.turns = .act (.writeReg 0 1) :: turns → s.st = .idle →
    s.frameCount.toNat < 2 →
    step s = .next { s with turns := turns, clamped := false, eom := false, faultCode := .config, st := .fault }

/-- O34. 44_host_commands.md R147 (acceptance) and R149: DECODE in READY begins a frame at WP = 0 with CLAMPED clear and CURSOR
kept, which the model's own `decodeFrom` notes (log entry 5); STOP in READY or FAULT goes to IDLE and keeps every other
register, FAULT_CODE among them. -/
def Obligations.DecodeAndStopAreAccepted : Prop :=
  (∀ (s : State) (turns : List HostTurn), s.turns = .act (.writeReg 0 2) :: turns → s.st = .ready →
    step s = .next { s with turns := turns, st := .busy, wp := 0#16, clamped := false, decodeFrom := s.cursor }) ∧
  (∀ (s : State) (turns : List HostTurn), s.turns = .act (.writeReg 0 3) :: turns → s.st = .ready ∨ s.st = .fault →
    step s = .next { s with turns := turns, st := .idle })

/-- O35. 44_host_commands.md R150: in every pair of state and CMD value that the table does not accept the write has no
effect at all. -/
def Obligations.OtherCommandsAreDropped : Prop :=
  ∀ (s : State) (value : Word) (turns : List HostTurn), s.turns = .act (.writeReg 0 value) :: turns →
    (∃ t, step s = .next t ∧
      (t = { s with turns := turns } ↔
        ¬((s.st = .idle ∧ value = 1#32) ∨ (s.st = .ready ∧ (value = 2#32 ∨ value = 3#32)) ∨ (s.st = .fault ∧ value = 3#32))))

/-- O36. 10_state.md R24, R27, 44_host_commands.md R151: the host register file. Reads change nothing but what the host has
received; they return 0 for CMD and for numbers above 6 and the current value zero-extended, but for CURSOR and WP in BUSY,
which return the value of some moment of the DECODE, and nothing says which (93_implementation_defined.md U15; a free value,
whose draw the model counts: log entry 5). FRAME_COUNT and BS_LEN are written in IDLE only; every other write but CMD's is
dropped. -/
def Obligations.HostRegisterFile : Prop :=
  (∀ (s : State) (n : Nat) (turns : List HostTurn), s.turns = .act (.readReg n) :: turns →
    ∃ (v : Word) (draws : Nat),
      step s = .next { s with turns := turns, replies := s.replies ++ [.register v], draws := draws } ∧
      (n = 0 ∨ 6 < n → v.toNat = 0) ∧ (n = 4 → v = s.frameIndex) ∧ (n = 5 → v = s.frameCount) ∧
      (n = 6 → v = s.bsLen) ∧
      (s.st ≠ .busy → draws = s.draws ∧ (n = 2 → v = s.cursor) ∧ (n = 3 → v.toNat = s.wp.toNat)) ∧
      (s.st = .busy → (n = 2 → ∃ k, v = (decodeMoment k s).cursor) ∧
        (n = 3 → ∃ k, v.toNat = (decodeMoment k s).wp.toNat))) ∧
  (∀ (s : State) (n : Nat) (value : Word) (turns : List HostTurn), s.turns = .act (.writeReg n value) :: turns →
    (n = 5 → s.st = .idle → step s = .next { s with turns := turns, frameCount := value }) ∧
    (n = 6 → s.st = .idle → step s = .next { s with turns := turns, bsLen := value }) ∧
    (n = 5 ∨ n = 6 → s.st ≠ .idle → step s = .next { s with turns := turns }) ∧
    (1 ≤ n ∧ n ≤ 4 ∨ 6 < n → step s = .next { s with turns := turns }))

/-- O37. 10_state.md R25 with R17, 60_exceptions.md R171, 44_host_commands.md R151: STATUS reads as ST + 4·ROLE + 8·CLAMPED +
16·EOM + 256·FAULT_CODE, every reserved bit 0. CLAMPED is the current value, in BUSY that of some moment of the DECODE, and
nothing says which (93_implementation_defined.md U15; a free value, whose draw the model counts: log entry 5); the other
fields are those of the instant of the read. -/
def Obligations.StatusLayout : Prop :=
  ∀ (s : State) (turns : List HostTurn), s.turns = .act (.readReg 1) :: turns →
    ∃ (v : Word) (clamped : Bool) (draws : Nat),
      step s = .next { s with turns := turns, replies := s.replies ++ [.register v], draws := draws } ∧
      (s.st ≠ .busy → draws = s.draws ∧ clamped = s.clamped) ∧
      (s.st = .busy → ∃ k, clamped = (decodeMoment k s).clamped) ∧
      v.toNat =
        (match s.st with | .idle => 0 | .ready => 1 | .busy => 2 | .fault => 3) +
        (match s.role with | .fb0 => 0 | .fb1 => 4) + (if clamped then 8 else 0) + (if s.eom then 16 else 0) +
        256 * (match s.faultCode with
          | .none => 0 | .underrun => 1 | .reserved => 2 | .refRange => 3 | .backRange => 4 | .absRange => 5
          | .config => 6)

/-- O38. 44_host_commands.md R160: in READY a window read at an index of the frame returns that byte of REF; any other read
returns some byte, which nothing else determines (a free value: log entry 7); no read changes the block's state. -/
def Obligations.FrameReadWindow : Prop :=
  ∀ (s : State) (k : Nat) (turns : List HostTurn), s.turns = .act (.readWindow k) :: turns →
    (s.st = .ready → k < 64000 →
      step s = .next { s with turns := turns, replies := s.replies ++ [.pixel (s.refByte k)] }) ∧
    (s.st ≠ .ready ∨ 64000 ≤ k →
      ∃ b : Byte, step s =
        .next { s with turns := turns, replies := s.replies ++ [.pixel b], draws := s.draws + 1 })

/-- O39. 20_memory.md R40, R58: the host writes BS in IDLE only, one byte at a time; outside IDLE the model has no such move
(70_reset_and_hazards.md R205; log entry 9). -/
def Obligations.HostLoadsTheBitstreamInIdle : Prop :=
  ∀ (s : State) (offset : Offset) (value : Byte) (turns : List HostTurn),
    s.turns = .act (.loadBs offset value) :: turns →
    (s.st = .idle → ∃ t, step s = .next t ∧
      (∀ a, t.bs.byte a = if a = offset.toNat then value else s.bs.byte a) ∧
      t = { s with turns := turns, bs := t.bs }) ∧
    (s.st ≠ .idle → step s = .refused .bitstreamWriteInSession)

/-- O40. 70_reset_and_hazards.md R200, 10_state.md R30: power-on reset, as the first state and as an event in any state, puts
every register at its reset value. -/
def Obligations.PowerOnResetValues : Prop :=
  let AtReset (t : State) : Prop :=
    t.st = .idle ∧ t.role = .fb0 ∧ t.cursor = 0 ∧ t.wp = 0 ∧ t.frameIndex = 0 ∧ t.frameCount = 0 ∧ t.bsLen = 0 ∧
      t.clamped = false ∧ t.eom = false ∧ t.faultCode = .none
  AtReset State.reset ∧
  ∀ (s : State) (turns : List HostTurn), s.turns = .act .powerOnReset :: turns → ∃ t, step s = .next t ∧ AtReset t

/-- O41. 70_reset_and_hazards.md R202 with 20_memory.md R45, R49: from IDLE, the host's boot sequence for a movie file leaves the
file's bytes from offset 772 on in BS, their number in BS_LEN and the little-endian frame count in FRAME_COUNT, and opens
a session exactly when the count is at least 2. Which files it leaves out: log entry 18. -/
def Obligations.BootSequenceOpensTheMovie : Prop :=
  ∀ (file : List Byte) (turns : List HostTurn) (s : State), bootTurns file = some turns → s.st = .idle →
    s.turns = turns →
    ∃ t, runSteps turns.length s = .next t ∧ t.turns = [] ∧
      t.bsLen.toNat + 772 = file.length ∧
      (∀ k, 772 + k < file.length → t.bs.byte k = file.getD (772 + k) 0) ∧
      t.frameCount.toNat = (file.getD 0 0).toNat + 256 * (file.getD 1 0).toNat + 65536 * (file.getD 2 0).toNat +
        16777216 * (file.getD 3 0).toNat ∧
      (2 ≤ t.frameCount.toNat → t.st = .ready ∧ t.cursor = 0 ∧ t.frameIndex = 0 ∧ ∀ a, t.refByte a = 0) ∧
      (t.frameCount.toNat < 2 → t.st = .fault ∧ t.faultCode = .config)

/-- O42. 44_host_commands.md R161 with R149: a tick that sees an input signal in READY ends the session without decoding: CURSOR,
FRAME_INDEX, ROLE and both buffers are as before. A tick without one begins a decode. The order is the host's (log entry
18). -/
def Obligations.CancelledTickDecodesNothing : Prop :=
  ∀ (s : State), s.st = .ready →
    (s.turns = tickTurns true s.st →
      runSteps (tickTurns true s.st).length s = .next { s with turns := [], st := .idle }) ∧
    (s.turns = tickTurns false s.st →
      runSteps (tickTurns false s.st).length s =
        .next { s with turns := [], st := .busy, wp := 0#16, clamped := false, decodeFrom := s.cursor })

/-- O43. 60_exceptions.md R180, R181: in FAULT nothing executes and nothing but STOP (or a reset) leaves the state; the code
and every other register, both buffers and BS are kept. -/
def Obligations.OnlyStopLeavesFault : Prop :=
  ∀ (s t : State), s.st = .fault → step s = .next t → (∀ turns, s.turns ≠ .act .powerOnReset :: turns) →
    t.fb0 = s.fb0 ∧ t.fb1 = s.fb1 ∧ t.role = s.role ∧ t.cursor = s.cursor ∧ t.wp = s.wp ∧
    t.frameIndex = s.frameIndex ∧ t.frameCount = s.frameCount ∧ t.bsLen = s.bsLen ∧ t.clamped = s.clamped ∧
    t.eom = s.eom ∧ t.faultCode = s.faultCode ∧ t.bs = s.bs ∧
    (t.st = .fault ∨ (t.st = .idle ∧ ∃ turns, s.turns = .act (.writeReg 0 3) :: turns))

/-- O44. 10_state.md R23: once a fault is recorded FAULT_CODE keeps its code in every step but an accepted START and a
reset, from every state of the invariant. -/
def Obligations.FaultCodeIsSticky : Prop :=
  ∀ (s t : State), Inv s → s.faultCode ≠ .none → step s = .next t →
    t.faultCode = s.faultCode ∨
    (∃ turns, s.turns = .act (.writeReg 0 1) :: turns ∧ s.st = .idle) ∨
    (∃ turns, s.turns = .act .powerOnReset :: turns)

/-- O45. 44_host_commands.md R148 with R160: after a frame that is not the last completes, a window read returns the frame just
decoded, byte by byte, and the old reference has become the output buffer. -/
def Obligations.CompletedFrameIsShown : Prop :=
  ∀ (s : State) (k : Nat), s.st = .busy → s.wp.toNat = 64000 → s.frameIndex.toNat + 2 < s.frameCount.toNat → k < 64000 →
    s.turns = [.yield, .act (.readWindow k)] →
    ∃ t, runSteps 2 s = .next t ∧ t.st = .ready ∧ t.replies = s.replies ++ [.pixel (s.outByte k)] ∧
      ∀ a, t.refByte a = s.outByte a ∧ t.outByte a = s.refByte a

/-- O46. 20_memory.md R56, 70_reset_and_hazards.md R204: while ST = BUSY a host transaction other than a reset changes nothing
of the block; only what the host has received, and the model's count of free values, may differ (log entries 4, 5 and 7). -/
def Obligations.HostHasNoEffectWhileBusy : Prop :=
  ∀ (s t : State) (op : HostOp) (turns : List HostTurn), s.st = .busy → s.turns = .act op :: turns →
    op ≠ .powerOnReset → step s = .next t →
    t = { s with turns := turns, replies := t.replies, draws := t.draws }

/-! ### What each flag and session register is written by -/

/-- O47. 10_state.md R16, R18: REF and OUT are the two buffers by ROLE; ROLE is inverted and FRAME_INDEX counts up by one at
each frame completion, never past FRAME_COUNT − 1; an accepted START sets both to 0, and so does a reset; nothing else
writes either. -/
def Obligations.RoleAndIndexChangeAtCompletion : Prop :=
  (∀ s : State, (s.role = .fb0 → s.ref = s.fb0 ∧ s.out = s.fb1) ∧ (s.role = .fb1 → s.ref = s.fb1 ∧ s.out = s.fb0)) ∧
  ∀ (s t : State), Inv s → step s = .next t →
    let completes := s.st = .busy ∧ s.wp.toNat = 64000 ∧ (s.turns = [] ∨ ∃ turns, s.turns = .yield :: turns)
    let opens := s.st = .idle ∧ 2 ≤ s.frameCount.toNat ∧ ∃ turns, s.turns = .act (.writeReg 0 1) :: turns
    let resets := ∃ turns, s.turns = .act .powerOnReset :: turns
    (completes → t.role = s.role.other ∧ t.frameIndex.toNat = s.frameIndex.toNat + 1 ∧
      t.frameIndex.toNat + 1 ≤ s.frameCount.toNat) ∧
    (opens ∨ resets → t.role = .fb0 ∧ t.frameIndex = 0) ∧
    (¬completes ∧ ¬opens ∧ ¬resets → t.role = s.role ∧ t.frameIndex = s.frameIndex)

/-- O48. 10_state.md R22: EOM is set exactly by the frame completion that reaches FRAME_COUNT − 1, which takes ST to IDLE; an
accepted START and a reset clear it; nothing else changes it, STOP included. -/
def Obligations.EomMarksTheEndOfTheMovie : Prop :=
  ∀ (s t : State), Inv s → step s = .next t →
    (t.eom = true → t.st = .idle) ∧
    (t.eom = true ↔
      (s.st = .busy ∧ s.wp.toNat = 64000 ∧ s.frameIndex.toNat + 2 = s.frameCount.toNat ∧
        (s.turns = [] ∨ ∃ turns, s.turns = .yield :: turns)) ∨
      (s.eom = true ∧ ¬(∃ turns, s.turns = .act (.writeReg 0 1) :: turns) ∧
        ¬(∃ turns, s.turns = .act .powerOnReset :: turns)))

/-- O49. 10_state.md R21, 40_instruction_cycle.md R100: of the host's transactions only an accepted DECODE, an accepted START
and a reset write CLAMPED, and they clear it. The FBD's own move, with no turn pending or a yield, only ever sets it: exactly
when the instruction fetched is one of the five copies, its length exceeds the space left, and it commits, which fills the
frame. -/
def Obligations.ClampedIsClearedByCommandsAndSetByACopy : Prop :=
  (∀ (s t : State) (op : HostOp) (turns : List HostTurn), s.turns = .act op :: turns → step s = .next t →
    ((op = .writeReg 0 2 ∧ s.st = .ready) ∨ (op = .writeReg 0 1 ∧ s.st = .idle) ∨ op = .powerOnReset →
      t.clamped = false) ∧
    (¬((op = .writeReg 0 2 ∧ s.st = .ready) ∨ (op = .writeReg 0 1 ∧ s.st = .idle) ∨ op = .powerOnReset) →
      t.clamped = s.clamped)) ∧
  (∀ (s t : State), s.turns = [] ∨ (∃ turns, s.turns = .yield :: turns) → step s = .next t →
    let truncates := s.st = .busy ∧ s.wp.toNat < 64000 ∧ t.st = .busy ∧
      ∃ i length, fetch s = .ok i ∧ i.copyLength = some length ∧ 64000 - s.wp.toNat < length
    (truncates → t.clamped = true ∧ t.wp.toNat = 64000) ∧ (¬truncates → t.clamped = s.clamped))

/-- O50. 44_host_commands.md R162: ST returns to IDLE, but for a reset, in exactly the three ways of its table: the completion
of the last frame, a STOP between frames, a STOP in FAULT; EOM and FAULT_CODE then tell which. -/
def Obligations.SessionEndsInOneOfThreeWays : Prop :=
  ∀ (s t : State), Inv s → s.st ≠ .idle → step s = .next t → t.st = .idle →
    (∀ turns, s.turns ≠ .act .powerOnReset :: turns) →
    (sessionEnd t = some .endOfMovie ∧ s.st = .busy ∧ t.frameIndex.toNat + 1 = t.frameCount.toNat) ∨
    (sessionEnd t = some .stopped ∧ s.st = .ready ∧ t.frameIndex = s.frameIndex ∧
      ∃ turns, s.turns = .act (.writeReg 0 3) :: turns) ∨
    (sessionEnd t = some .faulted ∧ s.st = .fault ∧ t.faultCode = s.faultCode ∧
      ∃ turns, s.turns = .act (.writeReg 0 3) :: turns)

/-- O51. 44_host_commands.md R151: what a register read in BUSY may show takes in the present values. That CURSOR, WP and CLAMPED
are those of a moment of the DECODE, replayed from its acceptance, holds after reset and is kept by every step, the FBD's and
the host's. The replay is the model's way of saying which values the registers take in a DECODE (log entry 5). -/
def Obligations.PresentValuesStayOnTheTrail : Prop :=
  (∀ turns : List HostTurn, OnTheTrail { State.reset with turns := turns }) ∧
  ∀ (s t : State), OnTheTrail s → step s = .next t → OnTheTrail t

/-- O52. 44_host_commands.md R151, 40_instruction_cycle.md R111: every value a register read in BUSY may show is in range: inside a
DECODE that was accepted at a CURSOR of at most BS_LEN, WP is at most 64000 and CURSOR lies between the CURSOR of the
acceptance and BS_LEN. The replay is the model's (log entry 5). -/
def Obligations.EveryMomentIsInRange : Prop :=
  ∀ (s : State) (k : Nat), s.st = .busy → s.decodeFrom.toNat ≤ s.bsLen.toNat →
    (decodeMoment k s).st = .busy ∧ (decodeMoment k s).wp.toNat ≤ 64000 ∧
    s.decodeFrom.toNat ≤ (decodeMoment k s).cursor.toNat ∧ (decodeMoment k s).cursor.toNat ≤ s.bsLen.toNat
end

