-- ==== Sys2Proof/Laws/State.lean ====
section
/-! SUPPORT. One lemma per field per update, so that no proof unfolds a record update: the stores into OUT, the commits,
fault entry, closing a session and a reply. -/

namespace Sys2Proof.Machine

@[simp] theorem frameBytes_eq : Config.frameBytes = 64000 := rfl

theorem Buf.other_ne (b : Buf) : b.other ≠ b := by cases b <;> decide

@[simp] theorem Buf.other_other (b : Buf) : b.other.other = b := by cases b <;> rfl

section SetOut
variable (s : State) (m : Memory)

@[simp] theorem setOut_role : (s.setOut m).role = s.role := by unfold State.setOut; split <;> rfl
@[simp] theorem setOut_cursor : (s.setOut m).cursor = s.cursor := by unfold State.setOut; split <;> rfl
@[simp] theorem setOut_wp : (s.setOut m).wp = s.wp := by unfold State.setOut; split <;> rfl
@[simp] theorem setOut_st : (s.setOut m).st = s.st := by unfold State.setOut; split <;> rfl
@[simp] theorem setOut_frameIndex : (s.setOut m).frameIndex = s.frameIndex := by unfold State.setOut; split <;> rfl
@[simp] theorem setOut_frameCount : (s.setOut m).frameCount = s.frameCount := by unfold State.setOut; split <;> rfl
@[simp] theorem setOut_bsLen : (s.setOut m).bsLen = s.bsLen := by unfold State.setOut; split <;> rfl
@[simp] theorem setOut_clamped : (s.setOut m).clamped = s.clamped := by unfold State.setOut; split <;> rfl
@[simp] theorem setOut_eom : (s.setOut m).eom = s.eom := by unfold State.setOut; split <;> rfl
@[simp] theorem setOut_faultCode : (s.setOut m).faultCode = s.faultCode := by unfold State.setOut; split <;> rfl
@[simp] theorem setOut_bs : (s.setOut m).bs = s.bs := by unfold State.setOut; split <;> rfl
@[simp] theorem setOut_turns : (s.setOut m).turns = s.turns := by unfold State.setOut; split <;> rfl
@[simp] theorem setOut_replies : (s.setOut m).replies = s.replies := by unfold State.setOut; split <;> rfl
@[simp] theorem setOut_draws : (s.setOut m).draws = s.draws := by unfold State.setOut; split <;> rfl
@[simp] theorem setOut_decodeFrom : (s.setOut m).decodeFrom = s.decodeFrom := by unfold State.setOut; split <;> rfl

@[simp] theorem setOut_out : (s.setOut m).out = m := by
  unfold State.out State.setOut; split <;> simp_all [State.fb, Buf.other]

@[simp] theorem setOut_ref : (s.setOut m).ref = s.ref := by
  unfold State.ref State.setOut; split <;> simp_all [State.fb]

end SetOut

section StoreOut
variable (s : State) (a : Nat) (v : Byte)

@[simp] theorem storeOut_role : (s.storeOut a v).role = s.role := setOut_role ..
@[simp] theorem storeOut_cursor : (s.storeOut a v).cursor = s.cursor := setOut_cursor ..
@[simp] theorem storeOut_wp : (s.storeOut a v).wp = s.wp := setOut_wp ..
@[simp] theorem storeOut_st : (s.storeOut a v).st = s.st := setOut_st ..
@[simp] theorem storeOut_frameIndex : (s.storeOut a v).frameIndex = s.frameIndex := setOut_frameIndex ..
@[simp] theorem storeOut_frameCount : (s.storeOut a v).frameCount = s.frameCount := setOut_frameCount ..
@[simp] theorem storeOut_bsLen : (s.storeOut a v).bsLen = s.bsLen := setOut_bsLen ..
@[simp] theorem storeOut_clamped : (s.storeOut a v).clamped = s.clamped := setOut_clamped ..
@[simp] theorem storeOut_eom : (s.storeOut a v).eom = s.eom := setOut_eom ..
@[simp] theorem storeOut_faultCode : (s.storeOut a v).faultCode = s.faultCode := setOut_faultCode ..
@[simp] theorem storeOut_bs : (s.storeOut a v).bs = s.bs := setOut_bs ..
@[simp] theorem storeOut_turns : (s.storeOut a v).turns = s.turns := setOut_turns ..
@[simp] theorem storeOut_replies : (s.storeOut a v).replies = s.replies := setOut_replies ..
@[simp] theorem storeOut_draws : (s.storeOut a v).draws = s.draws := setOut_draws ..
@[simp] theorem storeOut_decodeFrom : (s.storeOut a v).decodeFrom = s.decodeFrom := setOut_decodeFrom ..
@[simp] theorem storeOut_ref : (s.storeOut a v).ref = s.ref := setOut_ref ..
@[simp] theorem storeOut_out : (s.storeOut a v).out = s.out.set a v := setOut_out ..

end StoreOut

section Commit
variable (n length size : Nat) (s : State)

@[simp] theorem commit_wp : (commit n size s).wp = BitVec.ofNat 16 (s.wp.toNat + n) := rfl
@[simp] theorem commit_cursor : (commit n size s).cursor = BitVec.ofNat 32 (s.cursor.toNat + size) := rfl
@[simp] theorem commit_fb (b : Buf) : (commit n size s).fb b = s.fb b := by cases b <;> rfl
@[simp] theorem commit_ref : (commit n size s).ref = s.ref := commit_fb ..
@[simp] theorem commit_out : (commit n size s).out = s.out := commit_fb ..
@[simp] theorem commit_role : (commit n size s).role = s.role := rfl
@[simp] theorem commit_st : (commit n size s).st = s.st := rfl
@[simp] theorem commit_frameIndex : (commit n size s).frameIndex = s.frameIndex := rfl
@[simp] theorem commit_frameCount : (commit n size s).frameCount = s.frameCount := rfl
@[simp] theorem commit_bsLen : (commit n size s).bsLen = s.bsLen := rfl
@[simp] theorem commit_clamped : (commit n size s).clamped = s.clamped := rfl
@[simp] theorem commit_eom : (commit n size s).eom = s.eom := rfl
@[simp] theorem commit_faultCode : (commit n size s).faultCode = s.faultCode := rfl
@[simp] theorem commit_bs : (commit n size s).bs = s.bs := rfl
@[simp] theorem commit_turns : (commit n size s).turns = s.turns := rfl
@[simp] theorem commit_replies : (commit n size s).replies = s.replies := rfl
@[simp] theorem commit_draws : (commit n size s).draws = s.draws := rfl
@[simp] theorem commit_decodeFrom : (commit n size s).decodeFrom = s.decodeFrom := rfl

@[simp] theorem commitCopy_wp : (commitCopy n length size s).wp = BitVec.ofNat 16 (s.wp.toNat + n) := rfl
@[simp] theorem commitCopy_cursor :
    (commitCopy n length size s).cursor = BitVec.ofNat 32 (s.cursor.toNat + size) := rfl
@[simp] theorem commitCopy_clamped : (commitCopy n length size s).clamped = clampedAfter n length s.clamped := rfl
@[simp] theorem commitCopy_fb (b : Buf) : (commitCopy n length size s).fb b = s.fb b := by cases b <;> rfl
@[simp] theorem commitCopy_ref : (commitCopy n length size s).ref = s.ref := commitCopy_fb ..
@[simp] theorem commitCopy_out : (commitCopy n length size s).out = s.out := commitCopy_fb ..
@[simp] theorem commitCopy_role : (commitCopy n length size s).role = s.role := rfl
@[simp] theorem commitCopy_st : (commitCopy n length size s).st = s.st := rfl
@[simp] theorem commitCopy_frameIndex : (commitCopy n length size s).frameIndex = s.frameIndex := rfl
@[simp] theorem commitCopy_frameCount : (commitCopy n length size s).frameCount = s.frameCount := rfl
@[simp] theorem commitCopy_bsLen : (commitCopy n length size s).bsLen = s.bsLen := rfl
@[simp] theorem commitCopy_eom : (commitCopy n length size s).eom = s.eom := rfl
@[simp] theorem commitCopy_faultCode : (commitCopy n length size s).faultCode = s.faultCode := rfl
@[simp] theorem commitCopy_bs : (commitCopy n length size s).bs = s.bs := rfl
@[simp] theorem commitCopy_turns : (commitCopy n length size s).turns = s.turns := rfl
@[simp] theorem commitCopy_replies : (commitCopy n length size s).replies = s.replies := rfl
@[simp] theorem commitCopy_draws : (commitCopy n length size s).draws = s.draws := rfl
@[simp] theorem commitCopy_decodeFrom : (commitCopy n length size s).decodeFrom = s.decodeFrom := rfl

end Commit

section FaultEntry
variable (c : FaultCode) (s : State)

@[simp] theorem takeFault_faultCode : (takeFault c s).faultCode = c := rfl
@[simp] theorem takeFault_st : (takeFault c s).st = .fault := rfl
@[simp] theorem takeFault_fb (b : Buf) : (takeFault c s).fb b = s.fb b := by cases b <;> rfl
@[simp] theorem takeFault_ref : (takeFault c s).ref = s.ref := takeFault_fb ..
@[simp] theorem takeFault_out : (takeFault c s).out = s.out := takeFault_fb ..
@[simp] theorem takeFault_role : (takeFault c s).role = s.role := rfl
@[simp] theorem takeFault_cursor : (takeFault c s).cursor = s.cursor := rfl
@[simp] theorem takeFault_wp : (takeFault c s).wp = s.wp := rfl
@[simp] theorem takeFault_frameIndex : (takeFault c s).frameIndex = s.frameIndex := rfl
@[simp] theorem takeFault_frameCount : (takeFault c s).frameCount = s.frameCount := rfl
@[simp] theorem takeFault_bsLen : (takeFault c s).bsLen = s.bsLen := rfl
@[simp] theorem takeFault_clamped : (takeFault c s).clamped = s.clamped := rfl
@[simp] theorem takeFault_eom : (takeFault c s).eom = s.eom := rfl
@[simp] theorem takeFault_bs : (takeFault c s).bs = s.bs := rfl
@[simp] theorem takeFault_turns : (takeFault c s).turns = s.turns := rfl
@[simp] theorem takeFault_replies : (takeFault c s).replies = s.replies := rfl
@[simp] theorem takeFault_draws : (takeFault c s).draws = s.draws := rfl
@[simp] theorem takeFault_decodeFrom : (takeFault c s).decodeFrom = s.decodeFrom := rfl

end FaultEntry

section Reply
variable (r : Reply) (s : State)

@[simp] theorem closeSession_eq : closeSession s = { s with st := .idle } := rfl
@[simp] theorem reply_eq : s.reply r = { s with replies := s.replies ++ [r] } := rfl

end Reply

end Sys2Proof.Machine
end

