-- ==== Sys2Proof/Laws/Memory.lean ====
section
/-! SUPPORT. The laws of a byte memory: a read after a write, and that a write keeps the canonical form and the bounds. -/

namespace Sys2Proof.Machine

theorem lookupCell_eraseCell_same (a : Nat) (l : List Host.Cell) : lookupCell a (eraseCell a l) = none := by
  induction l with
  | nil => rfl
  | cons c r ih =>
    obtain ⟨k, b⟩ := c
    by_cases h : k = a <;> simp [eraseCell, lookupCell, h, ih]

theorem lookupCell_eraseCell_other {a x : Nat} (h : x ≠ a) (l : List Host.Cell) :
    lookupCell x (eraseCell a l) = lookupCell x l := by
  induction l with
  | nil => rfl
  | cons c r ih =>
    obtain ⟨k, b⟩ := c
    by_cases hk : k = a
    · subst hk; simp [eraseCell, lookupCell, ih, Ne.symm h]
    · rw [eraseCell, if_neg hk, lookupCell, lookupCell, ih]

theorem lookupCell_insertCell_same (a : Nat) (v : Byte) (l : List Host.Cell) (h : lookupCell a l = none) :
    lookupCell a (insertCell a v l) = some v := by
  induction l with
  | nil => simp [insertCell, lookupCell]
  | cons c r ih =>
    obtain ⟨k, b⟩ := c
    by_cases hk : k = a
    · simp [lookupCell, hk] at h
    · simp only [lookupCell, hk, if_false] at h
      by_cases hlt : a < k <;> simp [insertCell, lookupCell, hlt, hk, ih h]

theorem lookupCell_insertCell_other {a x : Nat} (h : x ≠ a) (v : Byte) (l : List Host.Cell) :
    lookupCell x (insertCell a v l) = lookupCell x l := by
  induction l with
  | nil => simp [insertCell, lookupCell, Ne.symm h]
  | cons c r ih =>
    obtain ⟨k, b⟩ := c
    by_cases hlt : a < k
    · simp [insertCell, lookupCell, hlt, Ne.symm h]
    · simp only [insertCell, hlt, if_false, lookupCell, ih]

/-- A read of the address written gives the byte written. -/
@[simp] theorem Memory.byte_set_same (m : Memory) (a : Nat) (v : Byte) : (m.set a v).byte a = v := by
  unfold Memory.byte Memory.set
  by_cases h : m.fill.known = some v
  · cases hf : m.fill with
    | unknown d => simp [hf, Fill.known] at h
    | zero =>
      have hv : 0#8 = v := by simpa [hf, Fill.known] using h
      subst hv
      simp [Fill.known, Fill.byte, lookupCell_eraseCell_same]
  · simp [h, lookupCell_insertCell_same _ _ _ (lookupCell_eraseCell_same a m.cells)]

/-- A read of any other address gives what it gave before. -/
theorem Memory.byte_set_other {a x : Nat} (h : x ≠ a) (m : Memory) (v : Byte) : (m.set a v).byte x = m.byte x := by
  unfold Memory.byte Memory.set
  by_cases hk : m.fill.known = some v
  · simp [hk, lookupCell_eraseCell_other h]
  · simp [hk, lookupCell_insertCell_other h, lookupCell_eraseCell_other h]

theorem Memory.byte_set (m : Memory) (a x : Nat) (v : Byte) :
    (m.set a v).byte x = if x = a then v else m.byte x := by
  by_cases h : x = a
  · subst h; simp
  · simp [h, Memory.byte_set_other h]

@[simp] theorem Memory.set_fill (m : Memory) (a : Nat) (v : Byte) : (m.set a v).fill = m.fill := rfl

theorem eraseCell_subset (a : Nat) (l : List Host.Cell) : ∀ c ∈ eraseCell a l, c ∈ l := by
  induction l with
  | nil => simp [eraseCell]
  | cons c r ih =>
    obtain ⟨k, b⟩ := c
    intro x hx
    by_cases hk : k = a
    · exact List.mem_cons_of_mem _ (ih x (by simpa [eraseCell, hk] using hx))
    · rcases List.mem_cons.1 (by simpa [eraseCell, hk] using hx) with rfl | hx
      · exact List.mem_cons_self ..
      · exact List.mem_cons_of_mem _ (ih x hx)

theorem eraseCell_ne (a : Nat) (l : List Host.Cell) : ∀ c ∈ eraseCell a l, c.1 ≠ a := by
  induction l with
  | nil => simp [eraseCell]
  | cons c r ih =>
    obtain ⟨k, b⟩ := c
    by_cases hk : k = a
    · simpa [eraseCell, hk] using ih
    · simpa [eraseCell, hk] using ih

theorem eraseCell_rising (a : Nat) (l : List Host.Cell) (h : l.Pairwise (fun x y => x.1 < y.1)) :
    (eraseCell a l).Pairwise (fun x y => x.1 < y.1) := by
  induction l with
  | nil => exact h
  | cons c r ih =>
    obtain ⟨k, b⟩ := c
    obtain ⟨hc, hr⟩ := List.pairwise_cons.1 h
    by_cases hk : k = a
    · simpa [eraseCell, hk] using ih hr
    · simp only [eraseCell, hk, if_false]
      exact List.pairwise_cons.2 ⟨fun x hx => hc x (eraseCell_subset a r x hx), ih hr⟩

theorem mem_insertCell {a : Nat} {v : Byte} {l : List Host.Cell} {c : Host.Cell} :
    c ∈ insertCell a v l ↔ c = (a, v) ∨ c ∈ l := by
  induction l with
  | nil => simp [insertCell]
  | cons d r ih =>
    obtain ⟨k, b⟩ := d
    by_cases hlt : a < k
    · simp [insertCell, hlt]
    · simp only [insertCell, hlt, if_false, List.mem_cons, ih]
      tauto

theorem insertCell_rising (a : Nat) (v : Byte) (l : List Host.Cell) (h : l.Pairwise (fun x y => x.1 < y.1))
    (hne : ∀ c ∈ l, c.1 ≠ a) : (insertCell a v l).Pairwise (fun x y => x.1 < y.1) := by
  induction l with
  | nil => simp [insertCell]
  | cons d r ih =>
    obtain ⟨k, b⟩ := d
    obtain ⟨hc, hr⟩ := List.pairwise_cons.1 h
    have hka : k ≠ a := hne (k, b) (List.mem_cons_self ..)
    by_cases hlt : a < k
    · simp only [insertCell, hlt, if_true]
      refine List.pairwise_cons.2 ⟨fun x hx => ?_, h⟩
      rcases List.mem_cons.1 hx with rfl | hx
      · exact hlt
      · exact Nat.lt_trans hlt (hc x hx)
    · simp only [insertCell, hlt, if_false]
      refine List.pairwise_cons.2 ⟨fun x hx => ?_, ih hr fun c hc' => hne c (List.mem_cons_of_mem _ hc')⟩
      rcases mem_insertCell.1 hx with rfl | hx
      · show k < a
        omega
      · exact hc x hx

/-- A write keeps the canonical form. -/
theorem Memory.wf_set (m : Memory) (a : Nat) (v : Byte) (h : m.wf) : (m.set a v).wf := by
  obtain ⟨hs, hf⟩ := h
  have he := eraseCell_rising a m.cells hs
  by_cases hk : m.fill.known = some v
  · refine ⟨by simpa [Memory.set, hk] using he, fun c hc => hf c (eraseCell_subset a _ c ?_)⟩
    simpa [Memory.set, hk] using hc
  · refine ⟨by simpa [Memory.set, hk] using insertCell_rising a v _ he (eraseCell_ne a _), fun c hc => ?_⟩
    rcases mem_insertCell.1 (by simpa [Memory.set, hk] using hc) with rfl | hc
    · exact hk
    · exact hf c (eraseCell_subset a _ c hc)

/-- A write at an address of the space keeps every listed address in it. -/
theorem Memory.within_set {size : Nat} (m : Memory) (a : Nat) (v : Byte) (h : m.within size) (ha : a < size) :
    (m.set a v).within size := by
  intro c hc
  by_cases hk : m.fill.known = some v
  · exact h c (eraseCell_subset a _ c (by simpa [Memory.set, hk] using hc))
  · rcases mem_insertCell.1 (by simpa [Memory.set, hk] using hc) with rfl | hc
    · exact ha
    · exact h c (eraseCell_subset a _ c hc)

theorem Memory.wf_zeroed : Memory.zeroed.wf := by simp [Memory.wf, Memory.zeroed]

theorem Memory.within_zeroed (size : Nat) : Memory.zeroed.within size := by simp [Memory.within, Memory.zeroed]

@[simp] theorem Memory.byte_zeroed (a : Nat) : Memory.zeroed.byte a = 0 := rfl

/-- A memory with nothing listed is in canonical form. -/
theorem Memory.wf_empty (f : Fill) : Memory.wf { fill := f, cells := [] } := by simp [Memory.wf]

/-- The memories of the reset state are in canonical form. -/
theorem reset_wf : State.reset.fb0.wf ∧ State.reset.fb1.wf ∧ State.reset.bs.wf :=
  ⟨Memory.wf_empty _, Memory.wf_empty _, Memory.wf_empty _⟩

@[simp] theorem outByte_storeOut (s : State) (a x : Nat) (v : Byte) :
    (s.storeOut a v).outByte x = if x = a then v else s.outByte x := by
  simp [State.outByte, Memory.byte_set]

@[simp] theorem refByte_storeOut (s : State) (a x : Nat) (v : Byte) : (s.storeOut a v).refByte x = s.refByte x := by
  simp [State.refByte]

end Sys2Proof.Machine
end

