-- ==== Sys2Proof/Laws/Copy.lean ====
section
/-! SUPPORT. What the copy engine can do: the loop of COPY writes exactly its destination range, each byte of it is what the
source index holds when the loop reads it, and nothing else changes (40_instruction_cycle.md R102, R108). -/

namespace Sys2Proof.Machine

/-- The loop changes nothing but OUT. -/
theorem copyBytes_frame (sp : Space) (n : Nat) : ∀ (src dst : Nat) (s : State),
    let t := copyBytes sp src dst n s
    t.ref = s.ref ∧ t.role = s.role ∧ t.cursor = s.cursor ∧ t.wp = s.wp ∧ t.st = s.st ∧
      t.frameIndex = s.frameIndex ∧ t.frameCount = s.frameCount ∧ t.bsLen = s.bsLen ∧ t.clamped = s.clamped ∧
      t.eom = s.eom ∧ t.faultCode = s.faultCode ∧ t.bs = s.bs ∧ t.turns = s.turns ∧ t.replies = s.replies ∧
      t.draws = s.draws ∧ t.out.fill = s.out.fill ∧ t.decodeFrom = s.decodeFrom := by
  induction n with
  | zero => intro src dst s; simp [copyBytes]
  | succ n ih =>
    intro src dst s
    have h := ih (src + 1) (dst + 1) (s.storeOut dst (s.load src sp))
    simpa [copyBytes] using h

/-- The loop writes its destination range and no other index. -/
theorem copyBytes_elsewhere (sp : Space) (n : Nat) : ∀ (src dst : Nat) (s : State) (a : Nat),
    a < dst ∨ dst + n ≤ a → (copyBytes sp src dst n s).outByte a = s.outByte a := by
  induction n with
  | zero => intro src dst s a _; rfl
  | succ n ih =>
    intro src dst s a ha
    rw [copyBytes, ih (src + 1) (dst + 1) _ a (by omega), outByte_storeOut, if_neg (by omega)]

/-- Temporal copy: byte `i` of the destination is byte `i` of the source range of REF. -/
theorem copyBytes_ref (n : Nat) : ∀ (src dst : Nat) (s : State) (i : Nat), i < n →
    (copyBytes .ref src dst n s).outByte (dst + i) = s.refByte (src + i) := by
  induction n with
  | zero => intro src dst s i hi; omega
  | succ n ih =>
    intro src dst s i hi
    rw [copyBytes]
    cases i with
    | zero =>
      rw [copyBytes_elsewhere _ _ _ _ _ _ (by omega)]
      simp [State.load]
    | succ i =>
      have h := ih (src + 1) (dst + 1) (s.storeOut dst (s.load src .ref)) i (by omega)
      rw [show dst + (i + 1) = dst + 1 + i by omega, show src + (i + 1) = src + 1 + i by omega, h]
      simp

/-- Self copy: byte `i` of the destination equals what its source index holds AFTER the copy, for a source below the
destination (20_memory.md R55: the load of byte `i` sees the stores of the bytes before it). -/
theorem copyBytes_out (n : Nat) : ∀ (src dst : Nat) (s : State), src < dst → ∀ i, i < n →
    (copyBytes .out src dst n s).outByte (dst + i) = (copyBytes .out src dst n s).outByte (src + i) := by
  induction n with
  | zero => intro src dst s _ i hi; omega
  | succ n ih =>
    intro src dst s hlt i hi
    rw [copyBytes]
    cases i with
    | zero =>
      rw [copyBytes_elsewhere _ _ _ _ _ _ (by omega), copyBytes_elsewhere _ _ _ _ _ _ (by omega)]
      simp [State.load]
    | succ i =>
      have h := ih (src + 1) (dst + 1) (s.storeOut dst (s.load src .out)) (by omega) i (by omega)
      rw [show dst + (i + 1) = dst + 1 + i by omega, show src + (i + 1) = src + 1 + i by omega, h]

/-- The loop keeps the canonical form and the bounds of OUT. -/
theorem copyBytes_wf (sp : Space) (n : Nat) : ∀ (src dst : Nat) (s : State), dst + n ≤ 64000 →
    s.out.wf → s.out.within 64000 →
    (copyBytes sp src dst n s).out.wf ∧ (copyBytes sp src dst n s).out.within 64000 := by
  induction n with
  | zero => intro src dst s _ h1 h2; exact ⟨h1, h2⟩
  | succ n ih =>
    intro src dst s hb h1 h2
    rw [copyBytes]
    refine ih _ _ _ (by omega) ?_ ?_
    · rw [storeOut_out]; exact Memory.wf_set _ _ _ h1
    · rw [storeOut_out]; exact Memory.within_set _ _ _ h2 (by omega)

/-- COPY with both ranges inside the frame is the loop. -/
theorem copyOp_inside {sp : Space} {src n : Nat} {s : State} (h1 : src + n ≤ 64000) (h2 : s.wp.toNat + n ≤ 64000) :
    copyOp sp src n s = .ok (copyBytes sp src s.wp.toNat n s) := by
  simp [copyOp, h1, h2]

/-- PUT with the write position inside the frame is the store. -/
theorem putOp_inside {v : Byte} {s : State} (h : s.wp.toNat < 64000) :
    putOp v s = .ok (s.storeOut s.wp.toNat v) := by
  simp [putOp, h]

end Sys2Proof.Machine
end

