-- ==== Sys2Proof/Laws/Decode.lean ====
section
/-! SUPPORT. What the decoder and the encoder can do: sizes, the first byte of an encoding, and that the decoder looks at no
byte beyond the instruction's own. -/

namespace Sys2Proof

@[simp] theorem length_bytesOf16 (w : BitVec 16) : (bytesOf16 w).length = 2 := rfl
@[simp] theorem length_bytesOf24 (w : BitVec 24) : (bytesOf24 w).length = 3 := rfl
@[simp] theorem length_bytesOf32 (w : BitVec 32) : (bytesOf32 w).length = 4 := rfl

/-- The inversion of decode: what it answers is the kind its first byte selects, and it consumes that kind's size (one byte
for a reserved first byte, which has none). -/
theorem decode_ok {l : List Byte} {i : Instr} {r : List Byte} (h : decode l = .ok (i, r)) :
    ∃ b0 t, l = b0 :: t ∧ i.kind = classify b0 ∧ l.length = (i.kind.size).getD 1 + r.length ∧
      l.drop ((i.kind.size).getD 1) = r := by
  cases l with
  | nil => simp [decode] at h
  | cons b0 t =>
    refine ⟨b0, t, rfl, ?_⟩
    simp only [decode] at h
    split at h <;> (try split at h) <;>
      first
      | (simp only [reduceCtorEq] at h)
      | (simp only [Except.ok.injEq, Prod.mk.injEq] at h
         obtain ⟨rfl, rfl⟩ := h
         simp_all [Instr.kind, Kind.size, fieldsLit, fieldsTcs, fieldsTcl, fieldsScs, fieldsScl, fieldsSca]
         omega)

/-- The decoder stops only for want of a byte: four bytes are enough for every first byte (30_encoding.md R79, R81). -/
theorem decode_total (b0 b1 b2 b3 : Byte) (r : List Byte) : ∃ i t, decode (b0 :: b1 :: b2 :: b3 :: r) = .ok (i, t) := by
  simp only [decode]
  cases classify b0 <;> exact ⟨_, _, rfl⟩

/-- Bytes after the instruction do not change what is decoded (20_memory.md R59). -/
theorem decode_append {l : List Byte} {i : Instr} {r : List Byte} (h : decode l = .ok (i, r)) (x : List Byte) :
    decode (l ++ x) = .ok (i, r ++ x) := by
  cases l with
  | nil => simp [decode] at h
  | cons b0 t =>
    simp only [decode] at h
    simp only [List.cons_append, decode]
    split at h <;> (try split at h) <;>
      first
      | (simp only [reduceCtorEq] at h)
      | (simp only [Except.ok.injEq, Prod.mk.injEq] at h
         obtain ⟨rfl, rfl⟩ := h
         simp_all)

section Words

/-- A word cut into bytes and assembled again is the word (20_memory.md R48). -/
theorem word16_bytes (w : BitVec 16) : word16 (w.extractLsb' 8 8) (w.extractLsb' 0 8) = w := by
  apply BitVec.eq_of_getLsbD_eq
  intro i hi
  simp only [word16, BitVec.getLsbD_append, BitVec.getLsbD_extractLsb']
  interval_cases i <;> simp

theorem word24_bytes (w : BitVec 24) :
    word24 (w.extractLsb' 16 8) (w.extractLsb' 8 8) (w.extractLsb' 0 8) = w := by
  apply BitVec.eq_of_getLsbD_eq
  intro i hi
  simp only [word24, BitVec.getLsbD_append, BitVec.getLsbD_extractLsb']
  interval_cases i <;> simp

theorem word32_bytes (w : BitVec 32) :
    word32 (w.extractLsb' 24 8) (w.extractLsb' 16 8) (w.extractLsb' 8 8) (w.extractLsb' 0 8) = w := by
  apply BitVec.eq_of_getLsbD_eq
  intro i hi
  simp only [word32, BitVec.getLsbD_append, BitVec.getLsbD_extractLsb']
  interval_cases i <;> simp

/-- The assembled words as numbers (20_memory.md R48). -/
theorem word16_toNat (b0 b1 : Byte) : (word16 b0 b1).toNat = b0.toNat * 256 + b1.toNat := by
  have := b1.isLt
  simp only [word16, BitVec.toNat_append]
  rw [← Nat.shiftLeft_add_eq_or_of_lt (by omega), Nat.shiftLeft_eq]

theorem word24_toNat (b0 b1 b2 : Byte) :
    (word24 b0 b1 b2).toNat = b0.toNat * 65536 + b1.toNat * 256 + b2.toNat := by
  have := b1.isLt
  have := b2.isLt
  simp only [word24, BitVec.toNat_append]
  rw [← Nat.shiftLeft_add_eq_or_of_lt (by omega), ← Nat.shiftLeft_add_eq_or_of_lt (by omega), Nat.shiftLeft_eq,
    Nat.shiftLeft_eq]
  omega

theorem word32_toNat (b0 b1 b2 b3 : Byte) : (word32 b0 b1 b2 b3).toNat =
    b0.toNat * 16777216 + b1.toNat * 65536 + b2.toNat * 256 + b3.toNat := by
  have := b1.isLt
  have := b2.isLt
  have := b3.isLt
  simp only [word32, BitVec.toNat_append]
  rw [← Nat.shiftLeft_add_eq_or_of_lt (by omega), ← Nat.shiftLeft_add_eq_or_of_lt (by omega),
    ← Nat.shiftLeft_add_eq_or_of_lt (by omega), Nat.shiftLeft_eq, Nat.shiftLeft_eq, Nat.shiftLeft_eq]
  omega

/-- A bit range as the document's shift and mask. -/
theorem extract_toNat {n : Nat} (w : BitVec n) (start len : Nat) :
    (w.extractLsb' start len).toNat = (w.toNat >>> start) &&& (2 ^ len - 1) := by
  simp [BitVec.extractLsb'_toNat, Nat.and_two_pow_sub_one_eq_mod]

/-- Bytes assembled into a word and cut again are the bytes. -/
theorem bytesOf16_word (b0 b1 : Byte) : bytesOf16 (word16 b0 b1) = [b0, b1] := by
  simp only [bytesOf16, List.cons.injEq, and_true]
  refine ⟨?_, ?_⟩ <;>
  · ext i hi
    simp only [word16, BitVec.getElem_extractLsb', BitVec.getLsbD_append]
    interval_cases i <;> simp

theorem bytesOf24_word (b0 b1 b2 : Byte) : bytesOf24 (word24 b0 b1 b2) = [b0, b1, b2] := by
  simp only [bytesOf24, List.cons.injEq, and_true]
  refine ⟨?_, ?_, ?_⟩ <;>
  · ext i hi
    simp only [word24, BitVec.getElem_extractLsb', BitVec.getLsbD_append]
    interval_cases i <;> simp

theorem bytesOf32_word (b0 b1 b2 b3 : Byte) : bytesOf32 (word32 b0 b1 b2 b3) = [b0, b1, b2, b3] := by
  simp only [bytesOf32, List.cons.injEq, and_true]
  refine ⟨?_, ?_, ?_, ?_⟩ <;>
  · ext i hi
    simp only [word32, BitVec.getElem_extractLsb', BitVec.getLsbD_append]
    interval_cases i <;> simp

end Words

section Tags

/-- The tag bits of an encoding are the top bits of its first byte (20_memory.md R48). -/
theorem tag_lit (v : BitVec 8) : (0xFF#8 ++ v).extractLsb' 8 8 = 0xFF#8 := by
  ext i hi
  simp only [BitVec.getElem_extractLsb', BitVec.getLsbD_append]
  interval_cases i <;> simp

theorem tag_tcs (t : BitVec 2) (p : BitVec 16) (l : BitVec 6) :
    ((t ++ p ++ l).extractLsb' 16 8).extractLsb' 6 2 = t := by
  ext i hi
  simp only [BitVec.getElem_extractLsb', BitVec.getLsbD_append, BitVec.getLsbD_extractLsb']
  interval_cases i <;> simp

theorem tag_tcl (t : BitVec 2) (p : BitVec 16) (l : BitVec 14) :
    ((t ++ p ++ l).extractLsb' 24 8).extractLsb' 6 2 = t := by
  ext i hi
  simp only [BitVec.getElem_extractLsb', BitVec.getLsbD_append, BitVec.getLsbD_extractLsb']
  interval_cases i <;> simp

theorem tag_scs (t : BitVec 2) (d : BitVec 8) (l : BitVec 6) (h : d.toNat ≤ 127) :
    ((t ++ d ++ l).extractLsb' 8 8).extractLsb' 5 3 = t ++ 0#1 := by
  have hd : d.getLsbD 7 = false := by
    rw [BitVec.getLsbD_eq_getElem (by omega)]
    simpa [BitVec.msb_eq_getLsbD_last] using (BitVec.msb_eq_false_iff_two_mul_lt.2 (by omega) : d.msb = false)
  apply BitVec.eq_of_getLsbD_eq
  intro i hi
  simp only [BitVec.getLsbD_append, BitVec.getLsbD_extractLsb']
  interval_cases i <;> simp_all

theorem tag_scl (t : BitVec 3) (d : BitVec 13) (l : BitVec 8) :
    ((t ++ d ++ l).extractLsb' 16 8).extractLsb' 5 3 = t := by
  ext i hi
  simp only [BitVec.getElem_extractLsb', BitVec.getLsbD_append, BitVec.getLsbD_extractLsb']
  interval_cases i <;> simp

theorem tag_sca (t : BitVec 3) (p : BitVec 16) (l : BitVec 13) :
    ((t ++ p ++ l).extractLsb' 24 8).extractLsb' 5 3 = t := by
  ext i hi
  simp only [BitVec.getElem_extractLsb', BitVec.getLsbD_append, BitVec.getLsbD_extractLsb']
  interval_cases i <;> simp

/-- The 256 first bytes, by their top bits (30_encoding.md R79). -/
theorem classify_top2 : ∀ b : Byte, (b.extractLsb' 6 2 = 0#2 → classify b = .tcs) ∧
    (b.extractLsb' 6 2 = 1#2 → classify b = .tcl) := by decide

theorem classify_top3 : ∀ b : Byte, (b.extractLsb' 5 3 = 4#3 → classify b = .scs) ∧
    (b.extractLsb' 5 3 = 5#3 → classify b = .scl) ∧ (b.extractLsb' 5 3 = 6#3 → classify b = .sca) := by decide

theorem classify_reserved : ∀ b : Byte, 0xE0 ≤ b.toNat → b.toNat ≤ 0xFE → classify b = .reserved := by decide

end Tags

end Sys2Proof
end

