-- ==== Sys2Proof/Laws/Exec.lean ====
section
/-! SUPPORT. What an instruction's meaning can do, said once: a copy commits or enters its fault; every meaning answers a
next state when WP is inside the frame; the next state is a fault entry or a commit inside the frame. -/

namespace Sys2Proof.Machine

open Sys2Proof

@[simp] theorem copyCount_eq (length : Nat) (s : State) : copyCount length s = clampCount length s.wp.toNat := rfl

theorem clampCount_le_length (length wp : Nat) : clampCount length wp ≤ length := Nat.min_le_left ..

/-- The clamped range stays inside the frame, or nothing is left to write (40_instruction_cycle.md R111). -/
theorem clampCount_bound (length wp : Nat) : clampCount length wp = 0 ∨ wp + clampCount length wp ≤ 64000 := by
  unfold clampCount; simp; omega

theorem wp_add_lt (length : Nat) (wp : BitVec 16) : wp.toNat + clampCount length wp.toNat < 2 ^ 16 := by
  have := clampCount_bound length wp.toNat
  have := wp.isLt
  omega

/-- A source in range keeps its reads inside the frame (40_instruction_cycle.md R111). -/
theorem Source.index_bound {src : Source} {wp n : Nat} (hr : src.inRange wp n = true) (hw : wp + n ≤ 64000) :
    src.index wp + n ≤ 64000 := by
  cases src with
  | absoluteRef p => simpa [Source.inRange, Source.index] using hr
  | backward d =>
    have hd : 1 ≤ d ∧ d ≤ wp := by simpa [Source.inRange] using hr
    show wp - d + n ≤ 64000
    omega
  | absoluteOut p =>
    have hp : p + n ≤ wp := by simpa [Source.inRange] using hr
    show p + n ≤ 64000
    omega

/-- A copy with nothing left to write, or with its source in range, commits (40_instruction_cycle.md R106). -/
theorem runCopy_done {src : Source} {length size : Nat} {s : State}
    (h : clampCount length s.wp.toNat = 0 ∨ src.inRange s.wp.toNat (clampCount length s.wp.toNat) = true) :
    runCopy src length size s = .next (commitCopy (clampCount length s.wp.toNat) length size
      (copyBytes src.space (src.index s.wp.toNat) s.wp.toNat (clampCount length s.wp.toNat) s)) := by
  unfold runCopy
  by_cases h0 : clampCount length s.wp.toNat = 0
  · simp [h0, copyBytes]
  · have hr := h.resolve_left h0
    have hw := (clampCount_bound length s.wp.toNat).resolve_left h0
    simp [h0, hr, copyOp_inside (Source.index_bound hr hw) hw]

/-- A copy of at least one byte with its source out of range enters its fault (40_instruction_cycle.md R101). -/
theorem runCopy_fault {src : Source} {length size : Nat} {s : State} (h0 : clampCount length s.wp.toNat ≠ 0)
    (hr : src.inRange s.wp.toNat (clampCount length s.wp.toNat) = false) :
    runCopy src length size s = .next (takeFault src.faultCode s) := by
  simp [runCopy, h0, hr]

/-- What a commit of at most one frame's bytes leaves (40_instruction_cycle.md R104, R111): the frame of an instruction, and
OUT's canonical form and bounds. -/
structure Committed (size : Nat) (s t : State) : Prop where
  frame : InstrFrame s t
  cursor : t.cursor = BitVec.ofNat 32 (s.cursor.toNat + size)
  wp_le : s.wp.toNat ≤ 64000 → t.wp.toNat ≤ 64000
  out_fill : t.out.fill = s.out.fill
  out_wf : s.out.wf → s.out.within 64000 → t.out.wf ∧ t.out.within 64000

theorem committed_copy (sp : Space) (src length size : Nat) (s : State) :
    Committed size s (commitCopy (clampCount length s.wp.toNat) length size
      (copyBytes sp src s.wp.toNat (clampCount length s.wp.toNat) s)) := by
  have h := copyBytes_frame sp (clampCount length s.wp.toNat) src s.wp.toNat s
  obtain ⟨href, hrole, hcur, hwp, hst, hfi, hfc, hbl, hcl, heom, hcode, hbs, htu, hre, hdr, hfill, hfrom⟩ := h
  have hlt := wp_add_lt length s.wp
  refine ⟨⟨?_, ?_, ?_, ?_, ?_, ?_, ?_, ?_, ?_, ?_, ?_, ?_, ?_⟩, ?_, ?_, ?_, ?_⟩
  · have := href; simp only [State.ref, hrole] at this; simpa using this
  · simpa using hrole
  · simpa using hst
  · simpa using hfi
  · simpa using hfc
  · simpa using hbl
  · simpa using heom
  · simpa using hcode
  · simpa using hbs
  · simpa using htu
  · simpa using hre
  · simpa using hdr
  · simpa using hfrom
  · simp [hcur]
  · intro hle
    have := clampCount_bound length s.wp.toNat
    simp only [commitCopy_wp, hwp, BitVec.toNat_ofNat]
    omega
  · simpa using hfill
  · intro h1 h2
    rcases clampCount_bound length s.wp.toNat with h0 | hb
    · simp only [h0, copyBytes, commitCopy_out]
      exact ⟨h1, h2⟩
    · rw [commitCopy_out]
      exact copyBytes_wf sp _ src s.wp.toNat s hb h1 h2

theorem committed_lit (v : Byte) (s : State) (hw : s.wp.toNat < 64000) :
    Committed 2 s (commit 1 2 (s.storeOut s.wp.toNat v)) := by
  refine ⟨⟨?_, ?_, ?_, ?_, ?_, ?_, ?_, ?_, ?_, ?_, ?_, ?_, ?_⟩, ?_, ?_, ?_, fun h1 h2 => ?_⟩ <;> try simp
  · have := storeOut_ref s s.wp.toNat v; simpa [State.ref] using this
  · omega
  · exact ⟨Memory.wf_set _ _ _ h1, fun a b h => Memory.within_set _ _ v h2 hw (a, b) h⟩

/-- Every copy answers a next state: the commit of its clamped bytes or its fault. -/
theorem runCopy_cases (src : Source) (length size : Nat) (s : State) :
    ∃ t, runCopy src length size s = .next t ∧ (Committed size s t ∨ t = takeFault src.faultCode s) := by
  by_cases h0 : clampCount length s.wp.toNat = 0
  · exact ⟨_, runCopy_done (.inl h0), .inl (committed_copy ..)⟩
  · by_cases hr : src.inRange s.wp.toNat (clampCount length s.wp.toNat) = true
    · exact ⟨_, runCopy_done (.inr hr), .inl (committed_copy ..)⟩
    · exact ⟨_, runCopy_fault h0 (by simpa using hr), .inr rfl⟩

/-- A copy that commits, in the terms of the statements: its bytes are `f`, and the rest is `Copied`'s. -/
theorem runCopy_copied {src : Source} {length size : Nat} {s : State} {f : Nat → Byte}
    (h : clampCount length s.wp.toNat = 0 ∨ src.inRange s.wp.toNat (clampCount length s.wp.toNat) = true)
    (hf : ∀ i, i < clampCount length s.wp.toNat →
      (copyBytes src.space (src.index s.wp.toNat) s.wp.toNat (clampCount length s.wp.toNat) s).outByte
        (s.wp.toNat + i) = f i) :
    ∃ t, runCopy src length size s = .next t ∧ Copied f length size s t := by
  have hfr := copyBytes_frame src.space (clampCount length s.wp.toNat) (src.index s.wp.toNat) s.wp.toNat s
  refine ⟨_, runCopy_done h, ?_, ?_, ?_, ?_, ?_, (committed_copy ..).frame⟩
  · intro i hi
    rw [← hf i hi]
    simp only [State.outByte, commitCopy_out]
  · intro a ha
    simp only [State.outByte, commitCopy_out]
    exact copyBytes_elsewhere _ _ _ _ _ _ ha
  · have := wp_add_lt length s.wp
    simp only [commitCopy_wp, hfr.2.2.2.1, copyCount_eq, BitVec.toNat_ofNat]
    exact Nat.mod_eq_of_lt this
  · apply BitVec.eq_of_toNat_eq
    simp [hfr.2.2.1]
  · simp only [commitCopy_clamped, hfr.2.2.2.2.2.2.2.2.1, clampedAfter]
    rfl

/-- The codes an instruction's meaning can raise. -/
def raisedCodes : List FaultCode := [.reserved, .refRange, .backRange, .absRange]

/-- The inversion of exec: with WP inside the frame every instruction answers a next state, which is its commit, by the size
of its kind, or the entry of one of the instruction faults. -/
theorem exec_cases (i : Instr) (s : State) (hw : s.wp.toNat < 64000) :
    ∃ t, exec i s = .next t ∧
      ((∃ size, i.kind.size = some size ∧ Committed size s t) ∨ ∃ c ∈ raisedCodes, t = takeFault c s) := by
  cases i with
  | lit v => exact ⟨_, by simp [exec, execLit, putOp_inside hw], .inl ⟨2, rfl, committed_lit v s hw⟩⟩
  | tcs p l =>
    obtain ⟨t, ht, hc | rfl⟩ := runCopy_cases (.absoluteRef p.toNat) l.toNat 3 s
    · exact ⟨t, ht, .inl ⟨3, rfl, hc⟩⟩
    · exact ⟨_, ht, .inr ⟨.refRange, by decide, rfl⟩⟩
  | tcl p l =>
    obtain ⟨t, ht, hc | rfl⟩ := runCopy_cases (.absoluteRef p.toNat) l.toNat 4 s
    · exact ⟨t, ht, .inl ⟨4, rfl, hc⟩⟩
    · exact ⟨_, ht, .inr ⟨.refRange, by decide, rfl⟩⟩
  | scs d l =>
    obtain ⟨t, ht, hc | rfl⟩ := runCopy_cases (.backward d.toNat) l.toNat 2 s
    · exact ⟨t, ht, .inl ⟨2, rfl, hc⟩⟩
    · exact ⟨_, ht, .inr ⟨.backRange, by decide, rfl⟩⟩
  | scl d l =>
    obtain ⟨t, ht, hc | rfl⟩ := runCopy_cases (.backward d.toNat) l.toNat 3 s
    · exact ⟨t, ht, .inl ⟨3, rfl, hc⟩⟩
    · exact ⟨_, ht, .inr ⟨.backRange, by decide, rfl⟩⟩
  | sca p l =>
    obtain ⟨t, ht, hc | rfl⟩ := runCopy_cases (.absoluteOut p.toNat) l.toNat 4 s
    · exact ⟨t, ht, .inl ⟨4, rfl, hc⟩⟩
    · exact ⟨_, ht, .inr ⟨.absRange, by decide, rfl⟩⟩
  | reserved b0 => exact ⟨_, rfl, .inr ⟨.reserved, by decide, rfl⟩⟩

end Sys2Proof.Machine
end

