-- ==== Sys2Proof/Laws/Step.lean ====
section
/-! SUPPORT. What a step can do, said once: the fetch, the FBD's move, the host's commands and register writes, and runs of
several steps. -/

namespace Sys2Proof.Machine

open Sys2Proof

@[simp] theorem Memory.length_bytes (m : Memory) (n : Nat) : ∀ a, (m.bytes a n).length = n := by
  induction n with
  | zero => intro a; rfl
  | succ n ih => intro a; simp [Memory.bytes, ih]

theorem Memory.bytes_add (m : Memory) (n k : Nat) : ∀ a, m.bytes a (n + k) = m.bytes a n ++ m.bytes (a + n) k := by
  induction n with
  | zero => intro a; simp [Memory.bytes]
  | succ n ih =>
    intro a
    rw [show n + 1 + k = (n + k) + 1 by omega, Memory.bytes, Memory.bytes, ih, List.cons_append,
      show a + 1 + n = a + (n + 1) by omega]

/-- What a fetch gives an instruction: a whole instruction lies before BS_LEN, and the next cursor is at most BS_LEN
(40_instruction_cycle.md R98, R111). -/
theorem fetch_ok {s : State} {i : Instr} (h : fetch s = .ok i) :
    s.cursor.toNat + (i.kind.size).getD 1 ≤ s.bsLen.toNat := by
  unfold fetch at h
  split at h
  · rename_i j r hd
    obtain rfl : j = i := by simpa using h
    obtain ⟨b0, t, hl, hk, hlen, _⟩ := decode_ok hd
    have hw : (fetchWindow s).length = min 4 (s.bsLen.toNat - s.cursor.toNat) := by simp [fetchWindow]
    have hpos : 1 ≤ (j.kind.size).getD 1 := by cases j <;> simp [Instr.kind, Kind.size]
    omega
  · simp at h

/-- The only code a fetch raises (60_exceptions.md R172). -/
theorem fetch_error {s : State} {c : FaultCode} (h : fetch s = .error c) : c = .underrun := by
  unfold fetch at h
  split at h <;> simp_all

/-- The inversion of an instruction step: with WP inside the frame it answers a next state, which is a commit that stays
before BS_LEN or the entry of an instruction fault. -/
theorem instrStep_cases (s : State) (hw : s.wp.toNat < 64000) :
    ∃ t, instrStep s = .next t ∧
      ((∃ i size, fetch s = .ok i ∧ i.kind.size = some size ∧ s.cursor.toNat + size ≤ s.bsLen.toNat ∧
          Committed size s t) ∨
        ∃ c, c ≠ .none ∧ c ≠ .config ∧ t = takeFault c s) := by
  unfold instrStep
  cases hf : fetch s with
  | error c =>
    have := fetch_error hf
    subst this
    exact ⟨_, rfl, .inr ⟨.underrun, by decide, by decide, rfl⟩⟩
  | ok i =>
    obtain ⟨t, ht, ⟨size, hs, hc⟩ | ⟨c, hc, rfl⟩⟩ := exec_cases i s hw
    · have hb := fetch_ok hf
      rw [hs] at hb
      exact ⟨t, ht, .inl ⟨i, size, rfl, hs, hb, hc⟩⟩
    · refine ⟨_, ht, .inr ⟨c, ?_, ?_, rfl⟩⟩ <;> (rintro rfl; revert hc; decide)

/-- The FBD's move by state (40_instruction_cycle.md R95). -/
theorem fbdMove_busy {s : State} (h : s.st = .busy) : fbdMove s =
    if s.wp.toNat < 64000 then instrStep s
    else if s.wp.toNat = 64000 then .next (completeFrame s) else .fault .writePositionOutOfRange := by
  simp [fbdMove, h]

theorem fbdMove_waits {s : State} (h : s.st ≠ .busy) : fbdMove s = .next s := by
  unfold fbdMove; split <;> simp_all

theorem step_no_turns {s : State} (h : s.turns = []) : step s = fbdMove s := by simp [step, h]

theorem step_yield {s : State} {r : List HostTurn} (h : s.turns = .yield :: r) :
    step s = fbdMove { s with turns := r } := by simp [step, h]

theorem step_act {s : State} {op : HostOp} {r : List HostTurn} (h : s.turns = .act op :: r) :
    step s = hostAct op { s with turns := r } := by simp [step, h]

/-- The end-of-movie test of a frame completion, on exact numbers (44_host_commands.md R148). -/
theorem lastFrame_succ {s : State} (h : s.frameIndex.toNat + 1 < s.frameCount.toNat) :
    (s.frameIndex + 1#32).toNat = s.frameIndex.toNat + 1 ∧
      lastFrame (s.frameIndex + 1#32) s.frameCount = decide (s.frameIndex.toNat + 2 = s.frameCount.toNat) := by
  have hi : (s.frameIndex + 1#32).toNat = s.frameIndex.toNat + 1 := by
    have := s.frameCount.isLt
    simp
    omega
  refine ⟨hi, ?_⟩
  rw [lastFrame, hi]

/-- Frame completion by cases: the movie ends, or the session goes on. -/
theorem completeFrame_cases (s : State) :
    (lastFrame (s.frameIndex + 1#32) s.frameCount = true ∧ completeFrame s =
      { s with role := s.role.other, frameIndex := s.frameIndex + 1#32, eom := true, st := .idle }) ∨
    (lastFrame (s.frameIndex + 1#32) s.frameCount = false ∧ completeFrame s =
      { s with role := s.role.other, frameIndex := s.frameIndex + 1#32, st := .ready }) := by
  cases h : lastFrame (s.frameIndex + 1#32) s.frameCount
  · exact .inr ⟨rfl, by simp only [completeFrame, h, Bool.or_false]; rfl⟩
  · exact .inl ⟨rfl, by simp only [completeFrame, h, Bool.or_true]; rfl⟩

/-- What a CMD write can do (44_host_commands.md R150): one of the three accepted commands, or nothing. -/
theorem writeCmd_cases (v : Word) (s : State) :
    (s.st = .idle ∧ v = 1#32 ∧ writeCmd v s = cmdStart s) ∨ (s.st = .ready ∧ v = 2#32 ∧ writeCmd v s = cmdDecode s) ∨
      ((s.st = .ready ∨ s.st = .fault) ∧ v = 3#32 ∧ writeCmd v s = cmdStop s) ∨ writeCmd v s = s := by
  unfold writeCmd
  split
  · by_cases h : v = 1#32 <;> simp_all
  · by_cases h : v = 2#32 <;> by_cases h3 : v = 3#32 <;> simp_all
  · simp
  · by_cases h : v = 3#32 <;> simp_all

/-- What a register write can do (10_state.md R27): a CMD write, FRAME_COUNT or BS_LEN in IDLE, or nothing. -/
theorem writeReg_cases (n : Nat) (v : Word) (s : State) :
    writeReg n v s = writeCmd v s ∨ (s.st = .idle ∧ writeReg n v s = { s with frameCount := v }) ∨
      (s.st = .idle ∧ writeReg n v s = { s with bsLen := v }) ∨ writeReg n v s = s := by
  unfold writeReg
  split <;> (try split_ifs) <;> simp_all

@[simp] theorem runSteps_zero (s : State) : runSteps 0 s = .next s := rfl

/-- A run of one more step, of any machine. -/
theorem run_one_more (M : Host.Core) (k : Nat) (s : M.State) : Host.Core.run M (k + 1) s =
    match M.step s with
    | .next t => Host.Core.run M k t
    | .fault r => .fault r
    | .refused r => .refused r := rfl

/-- A run of one more step, begun at the front. -/
theorem runSteps_succ {k : Nat} {s t : State} (h : step s = .next t) : runSteps (k + 1) s = runSteps k t := by
  have e := run_one_more core k s
  rw [show core.step s = .next t from h] at e
  exact e

/-- A run of one more step, taken apart: its first step answers a next state and the rest goes on from there. -/
theorem runSteps_succ_next {k : Nat} {s u : State} (h : runSteps (k + 1) s = .next u) :
    ∃ t, step s = .next t ∧ runSteps k t = .next u := by
  have e := run_one_more core k s
  cases hs : step s with
  | next t => exact ⟨t, rfl, by rw [← runSteps_succ hs]; exact h⟩
  | fault r =>
    rw [show core.step s = .fault r from hs] at e
    cases e.symm.trans h
  | refused r =>
    rw [show core.step s = .refused r from hs] at e
    cases e.symm.trans h

/-- Runs compose. -/
theorem runSteps_add {j k : Nat} : ∀ {s t : State}, runSteps j s = .next t → runSteps (j + k) s = runSteps k t := by
  induction j with
  | zero => intro s t h; cases h; simp
  | succ j ih =>
    intro s t h
    obtain ⟨u, hu, hr⟩ := runSteps_succ_next h
    rw [show j + 1 + k = (j + k) + 1 by omega, runSteps_succ hu, ih hr]

end Sys2Proof.Machine
end

