-- ==== Sys2Proof/Laws/Fetch.lean ====
section
/-! SUPPORT. What a fetch answers, case by case (40_instruction_cycle.md R96 to R99): nothing at or beyond BS_LEN, a
truncated instruction, a reserved first byte, and the kind of what it does answer. -/

namespace Sys2Proof.Machine

open Sys2Proof

/-- A list of bytes that a memory holds from an address on is what it reads there. -/
theorem Memory.bytes_of_agree (m : Memory) (l : List Byte) : ∀ a, (∀ k, k < l.length → m.byte (a + k) = l.getD k 0) →
    m.bytes a l.length = l := by
  induction l with
  | nil => intro a _; rfl
  | cons b r ih =>
    intro a h
    have h0 := h 0 (by simp)
    simp only [Nat.add_zero, List.getD_cons_zero] at h0
    simp only [List.length_cons, Memory.bytes]
    rw [ih (a + 1) (fun k hk => by
      have := h (k + 1) (by simpa using hk)
      simpa [Nat.add_assoc, Nat.add_comm 1] using this), h0]

/-- Storing a list of bytes keeps the canonical form. -/
theorem Memory.wf_setBytes (l : List Byte) : ∀ (m : Memory) (a : Nat), m.wf → (m.setBytes a l).wf := by
  induction l with
  | nil => intro m a h; exact h
  | cons b r ih => intro m a h; exact ih _ _ (Memory.wf_set m a b h)

/-- Below BS_LEN the window begins with the byte at CURSOR. -/
theorem fetchWindow_cons {s : State} (h : s.cursor.toNat < s.bsLen.toNat) :
    fetchWindow s = s.bs.byte s.cursor.toNat ::
      s.bs.bytes (s.cursor.toNat + 1) (min 4 (s.bsLen.toNat - s.cursor.toNat) - 1) := by
  have e : min Config.instrMax (s.bsLen.toNat - s.cursor.toNat) =
      (min 4 (s.bsLen.toNat - s.cursor.toNat) - 1) + 1 := by
    show min 4 _ = _; omega
  rw [fetchWindow, e]; rfl

/-- The first byte is missing (40_instruction_cycle.md R96). -/
theorem fetch_none {s : State} (h : s.bsLen.toNat ≤ s.cursor.toNat) : fetch s = .error .underrun := by
  have e : fetchWindow s = [] := by
    rw [fetchWindow, show min Config.instrMax (s.bsLen.toNat - s.cursor.toNat) = 0 by show min 4 _ = 0; omega]; rfl
  simp [fetch, e, decode]

/-- What a fetch answers is of the kind its first byte selects (30_encoding.md R70). -/
theorem fetch_kind {s : State} {i : Instr} (h : s.cursor.toNat < s.bsLen.toNat) (hf : fetch s = .ok i) :
    i.kind = classify (s.bs.byte s.cursor.toNat) := by
  unfold fetch at hf
  split at hf
  · rename_i j r hd
    obtain rfl : j = i := by simpa using hf
    obtain ⟨b0, t, hl, hk, _⟩ := decode_ok hd
    rw [fetchWindow_cons h] at hl
    simp only [List.cons.injEq] at hl
    rw [hk, hl.1]
  · simp at hf

/-- A later byte is missing (40_instruction_cycle.md R98). -/
theorem fetch_truncated {s : State} {size : Nat} (h : s.cursor.toNat < s.bsLen.toNat)
    (hs : (classify (s.bs.byte s.cursor.toNat)).size = some size) (hlt : s.bsLen.toNat < s.cursor.toNat + size) :
    fetch s = .error .underrun := by
  cases hf : fetch s with
  | error c => rw [fetch_error hf]
  | ok i =>
    have hb := fetch_ok hf
    rw [fetch_kind h hf, hs] at hb
    simp only [Option.getD_some] at hb
    omega

/-- A reserved first byte is recognised with no later byte looked at (60_exceptions.md R173). -/
theorem fetch_reserved {s : State} (h : s.cursor.toNat < s.bsLen.toNat)
    (hs : classify (s.bs.byte s.cursor.toNat) = .reserved) :
    fetch s = .ok (.reserved (s.bs.byte s.cursor.toNat)) := by
  unfold fetch
  rw [fetchWindow_cons h]
  simp [decode, hs]

/-- The FBD's move takes no host turn. -/
theorem fbdMove_turns {s t : State} (ht : s.turns = []) (h : fbdMove s = .next t) : t.turns = [] := by
  by_cases hst : s.st = .busy
  · rw [fbdMove_busy hst] at h
    split at h
    · rename_i hwp
      obtain ⟨u, hu, ⟨i, size, _, _, _, hc⟩ | ⟨c, _, _, rfl⟩⟩ := instrStep_cases s hwp
      · rw [hu] at h; cases h; rw [hc.frame.turns, ht]
      · rw [hu] at h; cases h; exact ht
    · split at h
      · cases h; exact ht
      · cases h
  · rw [fbdMove_waits hst] at h; cases h; exact ht

/-- With no turn pending and ST not BUSY, a run of any length stays where it is (60_exceptions.md R180, R186). -/
theorem runSteps_waits {k : Nat} {s : State} (ht : s.turns = []) (hst : s.st ≠ .busy) : runSteps k s = .next s := by
  induction k with
  | zero => rfl
  | succ k ih => rw [runSteps_succ (t := s) (by rw [step_no_turns ht, fbdMove_waits hst]), ih]

end Sys2Proof.Machine
end

