-- ==== Sys2Proof/Laws/Host.lean ====
section
/-! SUPPORT. The inversions of the two agents' moves, for the registers a session is made of: what a host transaction can do
to ROLE, FRAME_INDEX, EOM, CLAMPED and ST, and what the FBD's own move can do to them. -/

namespace Sys2Proof.Machine

open Sys2Proof

/-- A host transaction that answers a next state is an accepted START, an accepted DECODE, a reset, or leaves ROLE,
FRAME_INDEX, EOM and CLAMPED, and ST too unless it closes the session (44_host_commands.md R150). -/
theorem hostTurn_cases {s t : State} {op : HostOp} {r : List HostTurn} (ht : s.turns = .act op :: r)
    (h : step s = .next t) :
    (op = .writeReg 0 1 ∧ s.st = .idle ∧ t = cmdStart { s with turns := r }) ∨
    (op = .writeReg 0 2 ∧ s.st = .ready ∧ t = cmdDecode { s with turns := r }) ∨
    (op = .powerOnReset ∧ t = powerOnReset { s with turns := r }) ∨
    (¬(op = .writeReg 0 1 ∧ s.st = .idle) ∧ ¬(op = .writeReg 0 2 ∧ s.st = .ready) ∧ op ≠ .powerOnReset ∧
      t.role = s.role ∧ t.frameIndex = s.frameIndex ∧ t.eom = s.eom ∧ t.clamped = s.clamped ∧
      (t.st = s.st ∨ t.st = .idle)) := by
  rw [step_act ht] at h
  cases op with
  | writeReg n v =>
    simp only [hostAct] at h; cases h
    by_cases hn : n = 0
    · subst hn
      show (_ ∧ _ ∧ writeCmd _ _ = _) ∨ (_ ∧ _ ∧ writeCmd _ _ = _) ∨ (_ ∧ writeCmd _ _ = _) ∨
        (_ ∧ _ ∧ _ ∧ (writeCmd _ _).role = _ ∧ (writeCmd _ _).frameIndex = _ ∧ (writeCmd _ _).eom = _ ∧
          (writeCmd _ _).clamped = _ ∧ ((writeCmd _ _).st = _ ∨ (writeCmd _ _).st = _))
      unfold writeCmd
      cases hst : s.st <;> simp only
      · by_cases hv : v = 1#32 <;> simp [hv]
      · by_cases hv : v = 2#32
        · simp [hv]
        · by_cases h3 : v = 3#32 <;> simp [hv, h3, cmdStop]
      · simp
      · by_cases h3 : v = 3#32 <;> simp [h3, cmdStop]
    · refine .inr (.inr (.inr ⟨by simp [hn], by simp [hn], by simp, ?_⟩))
      unfold writeReg
      split
      · rename_i e; exact absurd (by revert e; unfold HostReg.ofNumber; split <;> simp) hn
      · split_ifs <;> simp
      · split_ifs <;> simp
      all_goals simp
  | readReg n => cases h; simp [readReg]
  | readWindow k => simp only [hostAct] at h; cases h; unfold readWindow; split_ifs <;> simp
  | loadBs o v => simp only [hostAct, loadBs] at h; split_ifs at h; cases h; simp
  | powerOnReset => cases h; simp

/-- The FBD's move is frame completion, or leaves ROLE, FRAME_INDEX and EOM (40_instruction_cycle.md R95). -/
theorem fbdMove_cases {s t : State} (h : fbdMove s = .next t) :
    (s.st = .busy ∧ s.wp.toNat = 64000 ∧ t = completeFrame s) ∨
    (¬(s.st = .busy ∧ s.wp.toNat = 64000) ∧ t.role = s.role ∧ t.frameIndex = s.frameIndex ∧ t.eom = s.eom ∧
      (s.st ≠ .busy → t.st = s.st)) := by
  by_cases hst : s.st = .busy
  · rw [fbdMove_busy hst] at h
    split at h
    · rename_i hw
      obtain ⟨u, hu, ⟨i, size, _, _, _, hc⟩ | ⟨c, _, _, rfl⟩⟩ := instrStep_cases s hw
      · rw [hu] at h; cases h
        exact .inr ⟨fun h => by omega, hc.frame.role, hc.frame.frameIndex, hc.frame.eom, fun h => absurd hst h⟩
      · rw [hu] at h; cases h
        exact .inr ⟨fun h => by omega, rfl, rfl, rfl, fun h => absurd hst h⟩
    · split at h
      · rename_i h2; cases h; exact .inl ⟨hst, h2, rfl⟩
      · cases h
  · rw [fbdMove_waits hst] at h; cases h; exact .inr ⟨fun h => hst h.1, rfl, rfl, rfl, fun _ => rfl⟩

end Sys2Proof.Machine
end

