-- ==== Sys2Proof/Laws/Moment.lean ====
section
/-! SUPPORT. What the moments of a DECODE depend on and what they can be (44_host_commands.md R151): CURSOR, WP and CLAMPED of
each are a function of BS, BS_LEN and the CURSOR of the acceptance, since no instruction's sizes, counts or checks look at a
byte of a frame. -/

namespace Sys2Proof.Machine

open Sys2Proof

/-- Two states agree on all that the trail of a DECODE depends on. -/
structure SameTrail (s t : State) : Prop where
  bs : t.bs = s.bs
  bsLen : t.bsLen = s.bsLen
  st : t.st = s.st
  cursor : t.cursor = s.cursor
  wp : t.wp = s.wp
  clamped : t.clamped = s.clamped

theorem SameTrail.symm {s t : State} (h : SameTrail s t) : SameTrail t s :=
  ⟨h.bs.symm, h.bsLen.symm, h.st.symm, h.cursor.symm, h.wp.symm, h.clamped.symm⟩

theorem SameTrail.trans {s t u : State} (h : SameTrail s t) (k : SameTrail t u) : SameTrail s u :=
  ⟨k.bs.trans h.bs, k.bsLen.trans h.bsLen, k.st.trans h.st, k.cursor.trans h.cursor, k.wp.trans h.wp,
    k.clamped.trans h.clamped⟩

theorem SameTrail.fetch {s t : State} (h : SameTrail s t) : fetch t = fetch s := by
  unfold Machine.fetch fetchWindow; rw [h.bs, h.cursor, h.bsLen]

theorem SameTrail.takeFault {s t : State} (h : SameTrail s t) (c : FaultCode) :
    SameTrail (takeFault c s) (takeFault c t) :=
  ⟨h.bs, h.bsLen, rfl, h.cursor, h.wp, h.clamped⟩

/-- The commit of a copy, for the trail: it does not matter which bytes were copied. -/
theorem SameTrail.commitCopy {s t : State} (h : SameTrail s t) (sp : Space) (src dst n length size : Nat) :
    SameTrail (commitCopy n length size (copyBytes sp src dst n s))
      (commitCopy n length size (copyBytes sp src dst n t)) := by
  obtain ⟨_, _, cur, wp, st, _, _, bl, cl, _, _, bs, _⟩ := copyBytes_frame sp n src dst s
  obtain ⟨_, _, cur', wp', st', _, _, bl', cl', _, _, bs', _⟩ := copyBytes_frame sp n src dst t
  exact ⟨by simp [bs, bs', h.bs], by simp [bl, bl', h.bsLen], by simp [st, st', h.st],
    by simp [cur, cur', h.cursor], by simp [wp, wp', h.wp], by simp [cl, cl', h.clamped]⟩

theorem SameTrail.runCopy {s t u : State} (h : SameTrail s t) {src : Source} {length size : Nat}
    (hs : runCopy src length size s = .next u) : ∃ v, runCopy src length size t = .next v ∧ SameTrail u v := by
  by_cases hc : clampCount length s.wp.toNat = 0 ∨ src.inRange s.wp.toNat (clampCount length s.wp.toNat) = true
  · rw [runCopy_done hc] at hs
    cases hs
    refine ⟨_, runCopy_done (by rw [h.wp]; exact hc), ?_⟩
    rw [h.wp]
    exact h.commitCopy ..
  · have hc' := not_or.1 hc
    rw [runCopy_fault hc'.1 (by simpa using hc'.2)] at hs
    cases hs
    rw [← h.wp] at hc'
    exact ⟨_, runCopy_fault hc'.1 (by simpa using hc'.2), h.takeFault _⟩

theorem SameTrail.exec {s t u : State} (h : SameTrail s t) {i : Instr} (hs : exec i s = .next u) :
    ∃ v, exec i t = .next v ∧ SameTrail u v := by
  cases i with
  | lit x =>
    by_cases hw : s.wp.toNat < 64000
    · simp only [Machine.exec, execLit, putOp_inside hw] at hs
      cases hs
      rw [← h.wp] at hw
      exact ⟨_, by simp only [Machine.exec, execLit, putOp_inside hw]; rfl, by simp [h.bs], by simp [h.bsLen],
        by simp [h.st], by simp [h.cursor], by simp [h.wp], by simp [h.clamped]⟩
    · simp [Machine.exec, execLit, putOp, hw] at hs
  | tcs p l => exact h.runCopy hs
  | tcl p l => exact h.runCopy hs
  | scs d l => exact h.runCopy hs
  | scl d l => exact h.runCopy hs
  | sca p l => exact h.runCopy hs
  | reserved b => cases hs; exact ⟨_, rfl, h.takeFault _⟩

theorem SameTrail.instrStep {s t u : State} (h : SameTrail s t) (hs : instrStep s = .next u) :
    ∃ v, instrStep t = .next v ∧ SameTrail u v := by
  unfold Machine.instrStep at hs ⊢
  rw [h.fetch]
  cases hf : Machine.fetch s with
  | ok i => rw [hf] at hs; exact h.exec hs
  | error c => rw [hf] at hs; cases hs; exact ⟨_, rfl, h.takeFault c⟩

/-- One more moment: a commit that leaves ST = BUSY, or the same moment. -/
theorem nextMoment_cases (s : State) :
    (∃ t, s.wp.toNat < 64000 ∧ instrStep s = .next t ∧ t.st = .busy ∧ nextMoment s = t) ∨
    ((∀ t, s.wp.toNat < 64000 → instrStep s = .next t → t.st ≠ .busy) ∧ nextMoment s = s) := by
  by_cases hw : s.wp.toNat < 64000
  · obtain ⟨t, ht, _⟩ := instrStep_cases s hw
    by_cases hst : t.st = .busy
    · exact .inl ⟨t, hw, ht, hst, by simp [nextMoment, hw, ht, hst]⟩
    · refine .inr ⟨fun u _ hu => ?_, by simp [nextMoment, hw, ht, hst]⟩
      rw [ht] at hu; cases hu; exact hst
  · exact .inr ⟨fun _ h => absurd h hw, by simp [nextMoment, hw]⟩

theorem SameTrail.nextMoment {s t : State} (h : SameTrail s t) : SameTrail (nextMoment s) (nextMoment t) := by
  rcases nextMoment_cases s with ⟨u, hw, hu, hb, e⟩ | ⟨hn, e⟩
  · obtain ⟨v, hv, hsame⟩ := h.instrStep hu
    have : Machine.nextMoment t = v := by simp [Machine.nextMoment, h.wp, hw, hv, hsame.st, hb]
    rw [e, this]; exact hsame
  · rcases nextMoment_cases t with ⟨v, hw, hv, hb, _⟩ | ⟨_, e'⟩
    · obtain ⟨u, hu, hsame⟩ := h.symm.instrStep hv
      exact absurd (by rw [hsame.st, hb]) (hn u (by rw [← h.wp]; exact hw) hu)
    · rw [e, e']; exact h

theorem SameTrail.momentAfter {k : Nat} : ∀ {s t : State}, SameTrail s t →
    SameTrail (momentAfter k s) (momentAfter k t) := by
  induction k with
  | zero => intro s t h; exact h
  | succ k ih => intro s t h; exact ih h.nextMoment

/-- The moments of a DECODE depend on BS, BS_LEN and the CURSOR of its acceptance. -/
theorem decodeMoment_congr {s t : State} (hbs : t.bs = s.bs) (hlen : t.bsLen = s.bsLen) (hst : t.st = s.st)
    (hfrom : t.decodeFrom = s.decodeFrom) (k : Nat) : SameTrail (decodeMoment k s) (decodeMoment k t) :=
  SameTrail.momentAfter ⟨hbs, hlen, hst, hfrom, rfl, rfl⟩

/-- One more moment at the far end. -/
theorem momentAfter_succ (k : Nat) : ∀ s, momentAfter (k + 1) s = nextMoment (momentAfter k s) := by
  induction k with
  | zero => intro s; rfl
  | succ k ih => intro s; exact ih (nextMoment s)

theorem decodeMoment_succ (k : Nat) (s : State) : decodeMoment (k + 1) s = nextMoment (decodeMoment k s) :=
  momentAfter_succ k _

/-- A moment of a DECODE is inside it, with BS and BS_LEN as they are throughout (20_memory.md R41). -/
theorem momentAfter_keep (k : Nat) : ∀ {s : State}, s.st = .busy →
    (momentAfter k s).st = .busy ∧ (momentAfter k s).bs = s.bs ∧ (momentAfter k s).bsLen = s.bsLen := by
  induction k with
  | zero => intro s h; exact ⟨h, rfl, rfl⟩
  | succ k ih =>
    intro s h
    rw [momentAfter]
    rcases nextMoment_cases s with ⟨t, hw, ht, hb, e⟩ | ⟨_, e⟩ <;> rw [e]
    · obtain ⟨u, hu, ⟨_, _, _, _, _, hc⟩ | ⟨_, _, _, rfl⟩⟩ := instrStep_cases s hw
      · obtain rfl : u = t := by rw [hu] at ht; simpa using ht
        rw [← hc.frame.bs, ← hc.frame.bsLen]
        exact ih hb
      · rw [hu] at ht; cases ht; cases hb
    · exact ih h

/-- A register read outside BUSY sees the present values. -/
theorem observed_present {s : State} (h : s.st ≠ .busy) : observed s = s := by simp [observed, h]

/-- A register read in BUSY sees a moment of the DECODE, which one by the free value alone. -/
theorem observed_moment {s : State} (h : s.st = .busy) : observed s = decodeMoment (Config.freeMoment s.draws) s := by
  simp [observed, h]

end Sys2Proof.Machine
end

