-- ==== Sys2Proof/Laws/PerInstr.lean ====
section
/-! SUPPORT. Statements made once per constructor of Instr. FirstByte: the encoding of a well-formed instruction begins with
a byte that selects its kind, and has its kind's size (30_encoding.md R70, R72). -/

namespace Sys2Proof.Laws.FirstByte

/-- The first byte of the encoding selects the kind, and the encoding has the kind's size (one byte for a reserved first
byte, which has none). -/
def Statement (i : Instr) : Prop :=
  i.wf = true → ∃ b0 t, encode i = b0 :: t ∧ classify b0 = i.kind ∧ (encode i).length = (i.kind.size).getD 1

theorem lit (v : BitVec 8) : Statement (.lit v) := fun _ =>
  ⟨_, _, rfl, by rw [tag_lit]; rfl, rfl⟩

theorem tcs (position : BitVec 16) (length : BitVec 6) : Statement (.tcs position length) := fun _ =>
  ⟨_, _, rfl, (classify_top2 _).1 (tag_tcs ..), rfl⟩

theorem tcl (position : BitVec 16) (length : BitVec 14) : Statement (.tcl position length) := fun _ =>
  ⟨_, _, rfl, (classify_top2 _).2 (tag_tcl ..), rfl⟩

theorem scs (distance : BitVec 8) (length : BitVec 6) : Statement (.scs distance length) := fun h =>
  ⟨_, _, rfl, (classify_top3 _).1 (tag_scs _ _ _ (by simpa [Instr.wf] using h)), rfl⟩

theorem scl (distance : BitVec 13) (length : BitVec 8) : Statement (.scl distance length) := fun _ =>
  ⟨_, _, rfl, (classify_top3 _).2.1 (tag_scl ..), rfl⟩

theorem sca (position : BitVec 16) (length : BitVec 13) : Statement (.sca position length) := fun _ =>
  ⟨_, _, rfl, (classify_top3 _).2.2 (tag_sca ..), rfl⟩

theorem reserved (b0 : BitVec 8) : Statement (.reserved b0) := fun h => by
  have hb : 0xE0 ≤ b0.toNat ∧ b0.toNat ≤ 0xFE := by simpa [Instr.wf] using h
  exact ⟨b0, [], rfl, classify_reserved b0 hb.1 hb.2, rfl⟩

end Sys2Proof.Laws.FirstByte
end

