-- ==== Sys2Proof/Tests/Slice0.lean ====
section
/-! SUPPORT. The model's own tests. Expected results come from spec/95_test_vectors.md (the id is in the comment) and from the
formats of 30_encoding.md. Then, for every statement with hypotheses, a witness that meets them. -/

namespace Sys2Proof.Tests

open Sys2Proof Machine

/-! ### Well-formedness -/

theorem test_scs_distance_128_is_ill_formed : (Instr.scs 128 0).wf = false := by decide
theorem test_scs_distance_127_is_well_formed : (Instr.scs 127 63).wf = true := by decide
theorem test_reserved_df_is_ill_formed : (Instr.reserved 0xDF).wf = false := by decide
theorem test_reserved_ff_is_ill_formed : (Instr.reserved 0xFF).wf = false := by decide
theorem test_reserved_bounds_are_well_formed :
    (Instr.reserved 0xE0).wf = true ∧ (Instr.reserved 0xFE).wf = true := by decide

/-! ### Words written out bit by bit -/

/-- Format L, R73: 11111111 vvvvvvvv. -/
theorem test_word_lit : decode [0b11111111, 0b10100101] = .ok (.lit 0b10100101, []) := rfl
/-- Format T3, R74: 00 pppppppppppppppp llllll with p = 1000000000000011, l = 100001. -/
theorem test_word_tcs :
    decode [0b00100000, 0b00000000, 0b11100001] = .ok (.tcs 0b1000000000000011 0b100001, []) := rfl
/-- Format T4, R75: 01 pppppppppppppppp llllllllllllll with p = 1000000000000011, l = 10000000000101. -/
theorem test_word_tcl :
    decode [0b01100000, 0b00000000, 0b11100000, 0b00000101] =
      .ok (.tcl 0b1000000000000011 0b10000000000101, []) := rfl
/-- Format S2, R76: 100 ddddddd llllll with d = 1000011, l = 100101. -/
theorem test_word_scs : decode [0b10010000, 0b11100101] = .ok (.scs 0b1000011 0b100101, []) := rfl
/-- Format S3, R77: 101 ddddddddddddd llllllll with d = 1000000000101, l = 10000011. -/
theorem test_word_scl :
    decode [0b10110000, 0b00000101, 0b10000011] = .ok (.scl 0b1000000000101 0b10000011, []) := rfl
/-- Format A4, R78: 110 pppppppppppppppp lllllllllllll with p = 1000000000000011, l = 1000000000101. -/
theorem test_word_sca :
    decode [0b11010000, 0b00000000, 0b01110000, 0b00000101] =
      .ok (.sca 0b1000000000000011 0b1000000000101, []) := rfl
/-- R80: a first byte 1110xxxx is reserved, whatever follows. -/
theorem test_word_reserved : decode [0b11100101, 0x12] = .ok (.reserved 0b11100101, [0x12]) := rfl

/-- R84's formulas, on 95_test_vectors.md section 2.2. -/
theorem test_encode_listed_words :
    encode (.lit 7) = [0xFF, 0x07] ∧ encode (.tcs 10 5) = [0x00, 0x02, 0x85] ∧
    encode (.tcl 49150 14851) = [0x6F, 0xFF, 0xBA, 0x03] ∧ encode (.scs 127 63) = [0x9F, 0xFF] ∧
    encode (.scl 320 200) = [0xA1, 0x40, 0xC8] ∧ encode (.sca 100 4) = [0xC0, 0x0C, 0x80, 0x04] := by decide

/-- A truncated instruction and an empty list are refused by name. -/
theorem test_decode_refuses_missing_bytes :
    decode [] = .error .noFirstByte ∧ decode [0xDF, 0xFF, 0xFF] = .error (.truncated .sca) := ⟨rfl, rfl⟩

/-- The opcode table's rows, as the table numbers their bits. -/
theorem test_decode_table_rows :
    decodeTableWord 16 0xFF00 = some (.lit 0) ∧ decodeTableWord 24 0x000000 = some (.tcs 0 0) ∧
    decodeTableWord 32 0x40000000 = some (.tcl 0 0) ∧ decodeTableWord 16 0x8000 = some (.scs 0 0) ∧
    decodeTableWord 24 0xA00000 = some (.scl 0 0) ∧ decodeTableWord 32 0xC0000000 = some (.sca 0 0) ∧
    decodeTableWord 8 0xE0 = some (.reserved 0xE0) := by decide

/-! ### One step -/

/-- A state inside a DECODE of a session: the given bytes are the bitstream from offset 0, REF is FB0, OUT is FB1, each zero
but for the listed cells. -/
def busy (bytes : List Byte) (wp : BitVec 16) (ref out : List Host.Cell) : State :=
  { State.reset with
    fb0 := { fill := .zero, cells := ref }
    fb1 := { fill := .zero, cells := out }
    st := .busy
    wp := wp
    bs := State.reset.bs.setBytes 0 bytes
    bsLen := BitVec.ofNat 32 bytes.length
    frameCount := 3 }

/-- A session between frames, FRAME_COUNT = 3, with the host's turns to come. -/
def ready (turns : List HostTurn) : State :=
  { busy [0xFF, 0x07] 0 [] [] with st := .ready, turns := turns }

/-- What a test looks at of a next state. -/
def look {α : Type} (f : State → α) : Result → Option α
  | .next s => some (f s)
  | .fault _ => none
  | .refused _ => none

/-- CURSOR, WP, CLAMPED and FAULT_CODE of the state. -/
def counters (s : State) : Nat × Nat × Bool × FaultCode := (s.cursor.toNat, s.wp.toNat, s.clamped, s.faultCode)

/-- V-LIT-1. -/
theorem test_lit_writes : look (fun t => (counters t, t.outByte 0)) (step (busy [0xFF, 0x07] 0 [] [])) =
    some ((2, 1, false, .none), 7) := rfl
/-- V-LIT-4. -/
theorem test_lit_last_byte :
    look (fun t => (counters t, t.outByte 63999, t.outByte 63998))
      (step (busy [0xFF, 0x00] 63999 [] [(63998, 0x55), (63999, 0x55)])) =
    some ((2, 64000, false, .none), 0, 0x55) := rfl
/-- V-TCS-4. -/
theorem test_tcs_clamps :
    look (fun t => (counters t, t.outByte 63998, t.outByte 63999))
      (step (busy [0x00, 0x02, 0x85] 63998 [(10, 73), (11, 80)] [])) =
    some ((3, 64000, true, .none), 73, 80) := rfl
/-- V-TCS-10: a 16-bit sum would wrap. -/
theorem test_tcs_range : look counters (step (busy [0x3F, 0xFF, 0xFF] 0 [] [])) = some (0, 0, false, .refRange) := rfl
/-- V-TCL-1. -/
theorem test_tcl_copies :
    look (fun t => (counters t, [t.outByte 0, t.outByte 1, t.outByte 2, t.outByte 3, t.outByte 4]))
      (step (busy [0x40, 0x19, 0x00, 0x04] 0 [(100, 1), (101, 2), (102, 3), (103, 4)] [])) =
    some ((4, 4, false, .none), [1, 2, 3, 4, 0]) := rfl
/-- V-TCL-7. -/
theorem test_tcl_range :
    look counters (step (busy [0x7F, 0xFF, 0xFF, 0xFF] 0 [] [])) = some (0, 0, false, .refRange) := rfl
/-- V-SCS-1. -/
theorem test_scs_repeats :
    look (fun t => (counters t, [t.outByte 10, t.outByte 11, t.outByte 12, t.outByte 13, t.outByte 14, t.outByte 15]))
      (step (busy [0x80, 0x45] 10 [] [(9, 9)])) = some ((2, 15, false, .none), [9, 9, 9, 9, 9, 0]) := rfl
/-- V-SCS-7. -/
theorem test_scs_distance_zero :
    look counters (step (busy [0x80, 0x01] 5 [] [])) = some (0, 5, false, .backRange) := rfl
/-- V-SCL-2. -/
theorem test_scl_period_three :
    look (fun t => (counters t, [t.outByte 10, t.outByte 11, t.outByte 12, t.outByte 13, t.outByte 16, t.outByte 17]))
      (step (busy [0xA0, 0x03, 0x08] 10 [] [(7, 1), (8, 2), (9, 3)])) =
    some ((3, 18, false, .none), [1, 2, 3, 1, 1, 2]) := rfl
/-- V-SCL-8. -/
theorem test_scl_distance_above_wp :
    look counters (step (busy [0xA0, 0x02, 0x01] 1 [] [(0, 3)])) = some (0, 1, false, .backRange) := rfl
/-- V-SCA-1: the source ends exactly at WP. -/
theorem test_sca_copies :
    look (fun t => (counters t, [t.outByte 104, t.outByte 105, t.outByte 106, t.outByte 107]))
      (step (busy [0xC0, 0x0C, 0x80, 0x04] 104 [] [(100, 1), (101, 2), (102, 3), (103, 4)])) =
    some ((4, 108, false, .none), [1, 2, 3, 4]) := rfl
/-- V-SCA-2. -/
theorem test_sca_range :
    look counters (step (busy [0xC0, 0x0C, 0x80, 0x04] 103 [] [(100, 1), (101, 2), (102, 3)])) =
    some (0, 103, false, .absRange) := rfl
/-- V-PRI-2: reserved beats underrun. -/
theorem test_reserved_last_byte : look counters (step (busy [0xE5] 0 [] [])) = some (0, 0, false, .reserved) := rfl
/-- V-PRI-4: underrun beats the range fault. -/
theorem test_underrun_before_range :
    look counters (step (busy [0xDF, 0xFF, 0xFF] 100 [] [])) = some (0, 100, false, .underrun) := rfl

/-- Each table row's word runs as the first instruction after reset: the cursor has moved by the row's size, or the reserved
byte's fault is taken. -/
theorem test_fetch_word_runs_first :
    look counters (step (State.reset.withFetchWord 16 0xFF07)) = some (2, 1, false, .none) ∧
    look counters (step (State.reset.withFetchWord 24 0x3F0000)) = some (3, 0, false, .none) ∧
    look counters (step (State.reset.withFetchWord 32 0x7FFFC000)) = some (4, 0, false, .none) ∧
    look counters (step (State.reset.withFetchWord 16 0x8041)) = some (0, 0, false, .backRange) ∧
    look counters (step (State.reset.withFetchWord 24 0xA00201)) = some (0, 0, false, .backRange) ∧
    look counters (step (State.reset.withFetchWord 32 0xC0000001)) = some (0, 0, false, .absRange) ∧
    look counters (step (State.reset.withFetchWord 8 0xE0)) = some (0, 0, false, .reserved) :=
  ⟨rfl, rfl, rfl, rfl, rfl, rfl, rfl⟩

/-! ### The host -/

/-- V-H-1 and V-H-2: STATUS reads 0 after reset; START on an empty movie gives STATUS 0x603. -/
theorem test_start_refused_status :
    look (·.replies) (runSteps 3 { State.reset with turns := [.act (.readReg 1), startTurn, .act (.readReg 1)] }) =
    some [.register 0, .register 0x603] := rfl
/-- V-H-5 and V-H-8: the session opens on a blank canvas, STATUS is 1. -/
theorem test_start_opens :
    look (fun t => (t.replies, t.cursor, t.frameIndex)) (runSteps 6 { State.reset with turns :=
      [.act (.writeReg 5 3), .act (.writeReg 6 48), startTurn, .act (.readReg 1), .act (.readWindow 0),
        .act (.readWindow 63999)] }) = some ([.register 1, .pixel 0, .pixel 0], 0, 0) := rfl
/-- V-H-6 and V-H-7: register writes and wrong commands in READY are dropped. -/
theorem test_writes_dropped_in_ready :
    look (fun t => (t.frameCount, t.bsLen, t.replies)) (runSteps 6 (ready [.act (.writeReg 5 9), .act (.writeReg 6 1),
      startTurn, .act (.writeReg 0 4), .act (.writeReg 0 0x102), .act (.readReg 1)])) =
    some (3, 2, [.register 1]) := rfl
/-- V-H-4: STOP from FAULT keeps the code. -/
theorem test_stop_keeps_code :
    look (·.replies) (runSteps 3 { State.reset with turns := [startTurn, stopTurn, .act (.readReg 1)] }) =
    some [.register 0x600] := rfl
/-- P1's last step and its variant: the completion of the last frame gives STATUS 0x1C, of an earlier one 0x0D. -/
theorem test_completion_status :
    look (·.replies) (runSteps 2 { busy [] 64000 [] [] with
      clamped := true, frameCount := 2, turns := [.yield, .act (.readReg 1)] }) = some [.register 0x1C] ∧
    look (·.replies) (runSteps 2 { busy [] 64000 [] [] with
      clamped := true, frameCount := 3, turns := [.yield, .act (.readReg 1)] }) = some [.register 0x0D] := ⟨rfl, rfl⟩

/-! ### Witnesses: the hypotheses of each statement, met -/

/-- O1, for every kind, at the ends of the checked ranges. -/
theorem test_witness_O1 : (Instr.lit 0xFF).wf = true ∧ (Instr.tcs 65535 63).wf = true ∧
    (Instr.tcl 65535 16383).wf = true ∧ (Instr.scs 127 63).wf = true ∧ (Instr.scl 8191 255).wf = true ∧
    (Instr.sca 65535 8191).wf = true ∧ (Instr.reserved 0xE0).wf = true ∧ (Instr.reserved 0xFE).wf = true := by decide
theorem test_witness_O2 : decode [0x9F, 0xFF, 0xE0] = .ok (.scs 127 63, [0xE0]) := rfl
/-- O3, both ends of every range, and the second part. -/
theorem test_witness_O3 : classify 0x00 = .tcs ∧ classify 0x3F = .tcs ∧ classify 0x40 = .tcl ∧ classify 0x7F = .tcl ∧
    classify 0x80 = .scs ∧ classify 0x9F = .scs ∧ classify 0xA0 = .scl ∧ classify 0xBF = .scl ∧
    classify 0xC0 = .sca ∧ classify 0xDF = .sca ∧ classify 0xE0 = .reserved ∧ classify 0xFE = .reserved ∧
    classify 0xFF = .lit ∧ decode [0xBF, 0xFF, 0xFF, 0x01] = .ok (.scl 8191 255, [0x01]) ∧
    (classify 0xBF).size = some 3 := ⟨rfl, rfl, rfl, rfl, rfl, rfl, rfl, rfl, rfl, rfl, rfl, rfl, rfl, rfl, rfl⟩
theorem test_witness_O4 : classify 0xFF = .lit ∧ classify 0x3F = .tcs ∧ classify 0x7F = .tcl ∧
    classify 0x9F = .scs ∧ classify 0xBF = .scl ∧ classify 0xDF = .sca := by decide
/-- O6: the last instruction of a bitstream, at the last position of a frame, with and without a yield. -/
theorem test_witness_O6 : let s := busy [0xFF, 0x07] 63999 [] []
    s.st = .busy ∧ s.wp.toNat < 64000 ∧
    (∀ k, k < [(0xFF : Byte), 0x07].length → s.bs.byte (s.cursor.toNat + k) = [(0xFF : Byte), 0x07].getD k 0) ∧
    s.cursor.toNat + [(0xFF : Byte), 0x07].length ≤ s.bsLen.toNat ∧
    decode [0xFF, 0x07] = .ok (.lit 7, []) ∧ s.turns = [] ∧
    (∃ r, (show State from { s with turns := [.yield] }).turns = .yield :: r) :=
  ⟨rfl, by decide, by decide, by decide, rfl, rfl, ⟨[], rfl⟩⟩
/-- O7: no first byte; the last byte of an SCA missing. -/
theorem test_witness_O7 :
    ((busy [] 63999 [] []).turns = [] ∧ (busy [] 63999 [] []).st = .busy ∧ (busy [] 63999 [] []).wp.toNat < 64000 ∧
      (busy [] 63999 [] []).bsLen.toNat ≤ (busy [] 63999 [] []).cursor.toNat) ∧
    let s := busy [0xC0, 0, 0] 0 [] []
    s.turns = [] ∧ s.st = .busy ∧ s.wp.toNat < 64000 ∧ s.cursor.toNat < s.bsLen.toNat ∧
    (classify (s.bs.byte s.cursor.toNat)).size = some 4 ∧ s.bsLen.toNat < s.cursor.toNat + 4 := by decide
/-- O8, both ends of the range, as the last byte of the bitstream. -/
theorem test_witness_O8 : ∀ b ∈ [(0xE0 : Byte), 0xFE], let s := busy [b] 0 [] []
    s.turns = [] ∧ s.st = .busy ∧ s.wp.toNat < 64000 ∧ s.cursor.toNat < s.bsLen.toNat ∧
    0xE0 ≤ (s.bs.byte s.cursor.toNat).toNat ∧ (s.bs.byte s.cursor.toNat).toNat ≤ 0xFE := by decide
/-- O9: each line of the priority list, and an instruction that runs. -/
theorem test_witness_O9 :
    look (·.faultCode) (step (busy [] 0 [] [])) = some .underrun ∧
    look (·.faultCode) (step (busy [0xFE] 0 [] [])) = some .reserved ∧
    look (·.faultCode) (step (busy [0xDF, 0xFF, 0xFF] 0 [] [])) = some .underrun ∧
    look (·.faultCode) (step (busy [0xDF, 0xFF, 0xFF, 0xFF] 0 [] [])) = some .absRange ∧
    look (·.st) (step (busy [0xFF, 0x07] 0 [] [])) = some .busy := ⟨rfl, rfl, rfl, rfl, rfl⟩
theorem test_witness_O10 : (busy [] 63999 [] []).wp.toNat < 64000 := by decide
/-- O11: nothing to copy, a source that ends at the last byte of REF, and one byte further, for both forms. -/
theorem test_witness_O11 : let s := busy [] 0 [] []
    copyCount (0 : BitVec 6).toNat s = 0 ∧ (63937 : BitVec 16).toNat + copyCount (63 : BitVec 6).toNat s ≤ 64000 ∧
    0 < copyCount (63 : BitVec 6).toNat s ∧ 64000 < (63938 : BitVec 16).toNat + copyCount (63 : BitVec 6).toNat s ∧
    copyCount (0 : BitVec 14).toNat s = 0 ∧
    (49149 : BitVec 16).toNat + copyCount (14851 : BitVec 14).toNat s ≤ 64000 ∧
    0 < copyCount (14851 : BitVec 14).toNat s ∧
    64000 < (49150 : BitVec 16).toNat + copyCount (14851 : BitVec 14).toNat s := by decide
/-- O12 and O14: distance 1, distance = WP, distance 0 and one above WP, and nothing to copy, for both forms. -/
theorem test_witness_O12 : let s := busy [] 127 [] []
    copyCount (0 : BitVec 6).toNat s = 0 ∧ (1 ≤ (1 : BitVec 8).toNat ∧ (1 : BitVec 8).toNat ≤ s.wp.toNat) ∧
    (1 ≤ (127 : BitVec 8).toNat ∧ (127 : BitVec 8).toNat ≤ s.wp.toNat) ∧ 0 < copyCount (63 : BitVec 6).toNat s ∧
    (0 : BitVec 8).toNat = 0 ∧ s.wp.toNat < (128 : BitVec 8).toNat ∧ copyCount (0 : BitVec 8).toNat s = 0 ∧
    (1 ≤ (127 : BitVec 13).toNat ∧ (127 : BitVec 13).toNat ≤ s.wp.toNat) ∧ 0 < copyCount (255 : BitVec 8).toNat s ∧
    (0 : BitVec 13).toNat = 0 ∧ s.wp.toNat < (128 : BitVec 13).toNat := by decide
/-- O13: nothing to copy, a source ending at WP, and one byte further. -/
theorem test_witness_O13 : let s := busy [] 104 [] []
    copyCount (0 : BitVec 13).toNat s = 0 ∧ (100 : BitVec 16).toNat + copyCount (4 : BitVec 13).toNat s ≤ s.wp.toNat ∧
    0 < copyCount (4 : BitVec 13).toNat s ∧
    s.wp.toNat < (101 : BitVec 16).toNat + copyCount (4 : BitVec 13).toNat s := by decide
/-- O14: distance 1 and distance = WP for the backward forms, a source ending at WP for the absolute one. -/
theorem test_witness_O14 : let s := busy [] 127 [] []
    (122 : BitVec 16).toNat + copyCount (5 : BitVec 13).toNat s ≤ s.wp.toNat ∧ 0 < copyCount (5 : BitVec 13).toNat s ∧
    1 ≤ (1 : BitVec 8).toNat ∧ (1 : BitVec 8).toNat ≤ s.wp.toNat ∧ (127 : BitVec 8).toNat ≤ s.wp.toNat ∧
    1 ≤ (127 : BitVec 13).toNat ∧ (127 : BitVec 13).toNat ≤ s.wp.toNat ∧ 0 < copyCount (5 : BitVec 6).toNat s := by
  decide
/-- O16: at two bytes from the end, a length of 3 is clamped and a length of 2 fits, for each copy. -/
theorem test_witness_O16 : let s := busy [] 63998 [] []
    s.wp.toNat < 64000 ∧ 64000 - s.wp.toNat < 3 ∧ 2 ≤ 64000 - s.wp.toNat ∧
    ∀ i ∈ [Instr.tcs 0 3, .tcs 0 2, .tcl 0 3, .tcl 0 2, .scs 1 3, .scs 1 2, .scl 1 3, .scl 1 2, .sca 0 3, .sca 0 2],
      look (·.st) (exec i s) = some .busy := by decide
/-- O17: a fault of each of the instruction's kinds is reached by a step. -/
theorem test_witness_O17 : ∀ bytes ∈ [([] : List Byte), [0xE0], [0x3F, 0xFF, 0xFF], [0x80, 0x01], [0xC0, 0, 0, 1]],
    let s := busy bytes 0 [] []
    s.turns = [] ∧ s.st = .busy ∧ s.wp.toNat < 64000 ∧ look (·.st) (step s) = some .fault := by decide
/-- O18 and O19: every instruction answers a next state somewhere. -/
theorem test_witness_O18_O19 : ∀ i ∈ [Instr.lit 1, .tcs 0 1, .tcl 0 1, .scs 1 1, .scl 1 1, .sca 0 1, .reserved 0xE0],
    (look (·.role) (exec i (busy [] 1 [] []))).isSome = true := by decide
/-- O20: a step of the FBD and a host transaction that sets CURSOR. -/
theorem test_witness_O20 :
    ((busy [0xFF, 7] 0 [] []).turns = [] ∧ look (·.cursor) (step (busy [0xFF, 7] 0 [] [])) = some 2) ∧
    (let s := { State.reset with frameCount := 2, cursor := 5, turns := [startTurn] }
     s.turns = .act (.writeReg 0 1) :: [] ∧ look (·.cursor) (step s) = some 0) := ⟨⟨rfl, rfl⟩, ⟨rfl, rfl⟩⟩
/-- O21: the premises of O11 and O12 at operands both forms have, and the faults. -/
theorem test_witness_O21 : let s := busy [] 127 [] []
    (63937 : BitVec 16).toNat + copyCount (63 : BitVec 6).toNat s ≤ 64000 ∧ 0 < copyCount (63 : BitVec 6).toNat s ∧
    64000 < (63938 : BitVec 16).toNat + copyCount (63 : BitVec 6).toNat s ∧
    (1 ≤ (127 : BitVec 8).toNat ∧ (127 : BitVec 8).toNat ≤ s.wp.toNat) ∧ s.wp.toNat < (128 : BitVec 8).toNat := by
  decide
theorem test_witness_O22 : let s := busy [] 104 [] []
    (100 : BitVec 16).toNat + (4 : BitVec 13).toNat = s.wp.toNat ∧ (4 : BitVec 8).toNat = (4 : BitVec 13).toNat ∧
    (100 : BitVec 16).toNat + copyCount (4 : BitVec 13).toNat s ≤ s.wp.toNat ∧
    0 < copyCount (4 : BitVec 13).toNat s := by decide
/-- O23: the last frame and one before it. -/
theorem test_witness_O23 : let s := busy [] 64000 [] []
    s.turns = [] ∧ s.st = .busy ∧ s.wp.toNat = 64000 ∧ s.frameIndex.toNat + 1 < s.frameCount.toNat ∧
    s.frameIndex.toNat + 2 ≠ s.frameCount.toNat ∧
    (show State from { s with frameIndex := 1 }).frameIndex.toNat + 2 = s.frameCount.toNat := by decide

/-- A second state of the same frame: other stale bytes ahead of WP, the roles exchanged, a later frame of a session. -/
def elsewhere : State :=
  { busy [0xFF, 0x07] 0 [(3, 4)] [] with
    fb0 := { fill := .zero, cells := [(9, 0x55)] }
    fb1 := { fill := .zero, cells := [(3, 4)] }
    role := .fb1
    frameIndex := 1 }

theorem test_witness_O24 : SameFrameInputs (busy [0xFF, 0x07] 0 [(3, 4)] []) elsewhere ∧
    (busy [0xFF, 0x07] 0 [(3, 4)] []).turns = [] ∧ elsewhere.turns = [] ∧
    look (·.st) (runSteps 1 (busy [0xFF, 0x07] 0 [(3, 4)] [])) = some .busy ∧
    look (·.st) (runSteps 2 (busy [0xFF, 0x07] 0 [(3, 4)] [])) = some .fault ∧
    elsewhere.outByte 9 ≠ (busy [0xFF, 0x07] 0 [(3, 4)] []).outByte 9 :=
  ⟨⟨fun _ _ => rfl, rfl, rfl, rfl, rfl, rfl, rfl, fun _ _ => rfl, fun a h => absurd h (Nat.not_lt_zero a)⟩, rfl, rfl, rfl, rfl,
    by decide⟩
/-- O24, second clause: two values of BS_LEN, BS equal on the three bytes consumed, both decodes complete. -/
theorem test_witness_O24_lengths :
    let s := busy [0x00, 0x02, 0x85] 63998 [(10, 73)] []
    let t := busy [0x00, 0x02, 0x85, 0x11] 63998 [(10, 73)] []
    s.turns = [] ∧ t.turns = [] ∧ s.st = .busy ∧ t.st = .busy ∧ t.cursor = s.cursor ∧ t.wp = s.wp ∧
    t.clamped = s.clamped ∧ (∀ a, a < 64000 → t.refByte a = s.refByte a) ∧
    (∀ a, a < s.wp.toNat → t.outByte a = s.outByte a) ∧ t.bsLen ≠ s.bsLen ∧
    look (fun u => (u.st, u.wp, u.cursor)) (runSteps 1 s) = some (.busy, 64000, 3) ∧
    look (fun u => (u.st, u.wp, u.cursor)) (runSteps 1 t) = some (.busy, 64000, 3) ∧
    (∀ a, a < 3 → t.bs.byte a = s.bs.byte a) :=
  ⟨rfl, rfl, rfl, rfl, rfl, rfl, rfl, fun _ _ => rfl, fun _ _ => rfl, by decide, rfl, rfl, by decide⟩
/-- O25: a decode that has all its bytes before it, and a frame that is complete. -/
theorem test_witness_O25 :
    ((busy [0xFF, 0x07] 0 [] []).turns = [] ∧ (busy [0xFF, 0x07] 0 [] []).st = .busy ∧
      (busy [0xFF, 0x07] 0 [] []).wp.toNat ≤ 64000) ∧
    (busy [] 64000 [] []).turns = [] ∧ (busy [] 64000 [] []).st = .busy ∧ (busy [] 64000 [] []).wp.toNat ≤ 64000 :=
  ⟨⟨rfl, rfl, Nat.zero_le _⟩, rfl, rfl, Nat.le_refl _⟩

/-- O25, second clause: a decode with a yield, a register read and a dropped command pending. -/
theorem test_witness_O25_turns :
    let s := { busy [0xFF, 0x07] 0 [] [] with turns := [.act (.readReg 3), .yield, .act (.writeReg 0 3)] }
    (∀ op, HostTurn.act op ∈ s.turns → op ≠ .powerOnReset ∧ ∀ offset value, op ≠ .loadBs offset value) ∧
    s.st = .busy ∧ s.wp.toNat ≤ 64000 := by
  refine ⟨?_, rfl, by decide⟩
  intro op h
  simp only [List.mem_cons, HostTurn.act.injEq, reduceCtorEq, List.not_mem_nil, or_false, false_or] at h
  rcases h with rfl | rfl <;> exact ⟨by decide, fun _ _ h => by cases h⟩

/-- The invariant holds of a state inside a DECODE, one byte before a frame's end, with cells in both buffers. -/
theorem test_witness_inv_busy (turns : List HostTurn) :
    Inv { busy [0xFF, 0x07] 63999 [(3, 4)] [(63998, 9)] with turns := turns } where
  wp_le := by show (63999 : BitVec 16).toNat ≤ 64000; decide
  cursor_le := fun _ => by show (0 : BitVec 32).toNat ≤ (BitVec.ofNat 32 2).toNat; decide
  ready_wp := fun h => by cases h
  index_lt := fun _ => by show (0 : BitVec 32).toNat + 1 < (3 : BitVec 32).toNat; decide
  open_code := fun _ => rfl
  fault_code := fun h => by cases h
  eom_end := fun h => by cases h
  open_zeroed := fun _ => ⟨rfl, rfl⟩
  fb0_wf := by show Memory.wf ⟨.zero, [(3, 4)]⟩ ∧ Memory.within 64000 ⟨.zero, [(3, 4)]⟩; decide
  fb1_wf := by show Memory.wf ⟨.zero, [(63998, 9)]⟩ ∧ Memory.within 64000 ⟨.zero, [(63998, 9)]⟩; decide
  bs_wf := by
    show Memory.wf ⟨.unknown 2, [(0, 0xFF), (1, 0x07)]⟩ ∧ Memory.within (2 ^ 32) ⟨.unknown 2, [(0, 0xFF), (1, 0x07)]⟩
    decide

/-- The invariant holds of an open session between frames. -/
theorem test_witness_inv_ready (turns : List HostTurn) : Inv (ready turns) where
  wp_le := by show (0 : BitVec 16).toNat ≤ 64000; decide
  cursor_le := fun _ => by show (0 : BitVec 32).toNat ≤ (BitVec.ofNat 32 2).toNat; decide
  ready_wp := fun _ => .inl rfl
  index_lt := fun _ => by show (0 : BitVec 32).toNat + 1 < (3 : BitVec 32).toNat; decide
  open_code := fun _ => rfl
  fault_code := fun h => by cases h
  eom_end := fun h => by cases h
  open_zeroed := fun _ => ⟨rfl, rfl⟩
  fb0_wf := by show Memory.wf ⟨.zero, []⟩ ∧ Memory.within 64000 ⟨.zero, []⟩; decide
  fb1_wf := by show Memory.wf ⟨.zero, []⟩ ∧ Memory.within 64000 ⟨.zero, []⟩; decide
  bs_wf := by
    show Memory.wf ⟨.unknown 2, [(0, 0xFF), (1, 0x07)]⟩ ∧ Memory.within (2 ^ 32) ⟨.unknown 2, [(0, 0xFF), (1, 0x07)]⟩
    decide

/-- O27: the invariant with a step that answers a next state, of the FBD and of the host. -/
theorem test_witness_O27 :
    (Inv { busy [0xFF, 0x07] 63999 [(3, 4)] [(63998, 9)] with turns := [] } ∧
      look (·.wp) (step { busy [0xFF, 0x07] 63999 [(3, 4)] [(63998, 9)] with turns := [] }) = some 64000) ∧
    (Inv (ready [decodeTurn]) ∧ look (·.st) (step (ready [decodeTurn])) = some .busy) :=
  ⟨⟨test_witness_inv_busy [], rfl⟩, ⟨test_witness_inv_ready _, rfl⟩⟩
/-- O28: a state with an open session is reachable. -/
theorem test_witness_O28 : Reachable State.reset ∧ ∃ s, Reachable s ∧ s.st = .ready :=
  ⟨⟨[], 0, rfl⟩, _, ⟨[.act (.writeReg 5 2), startTurn], 2, rfl⟩, rfl⟩
/-- O29: the last byte of a frame, and a CURSOR at BS_LEN. -/
theorem test_witness_O29 : ∀ bytes ∈ [([] : List Byte), [0xFF, 0x07]], let s := busy bytes 63999 [] []
    s.turns = [] ∧ s.st = .busy ∧ s.wp.toNat < 64000 ∧ s.cursor.toNat ≤ s.bsLen.toNat := by decide
/-- O30: the invariant, with a step that answers and with the refused host write. -/
theorem test_witness_O30 : Inv (ready [decodeTurn]) ∧ Inv (ready [.act (.loadBs 0 1)]) ∧
    step (ready [.act (.loadBs 0 1)]) = .refused .bitstreamWriteInSession :=
  ⟨test_witness_inv_ready _, test_witness_inv_ready _, rfl⟩
theorem test_witness_O31 : (ready []).turns = [] ∧ (ready []).st ≠ .busy ∧ State.reset.turns = [] ∧
    State.reset.st ≠ .busy := by decide
/-- O32 and O33: the smallest movie and the largest refused count. -/
theorem test_witness_O32_O33 : let s := fun c : Word => { State.reset with frameCount := c, turns := [startTurn] }
    (s 2).turns = .act (.writeReg 0 1) :: [] ∧ (s 2).st = .idle ∧ 2 ≤ (s 2).frameCount.toNat ∧
    (s 1).turns = .act (.writeReg 0 1) :: [] ∧ (s 1).st = .idle ∧ (s 1).frameCount.toNat < 2 := by decide
/-- O34: DECODE in READY, STOP in READY and in FAULT. -/
theorem test_witness_O34 : (ready [decodeTurn]).turns = .act (.writeReg 0 2) :: [] ∧ (ready [decodeTurn]).st = .ready ∧
    (ready [stopTurn]).turns = .act (.writeReg 0 3) :: [] ∧ (ready [stopTurn]).st = .ready ∧
    (takeFault .underrun (ready [stopTurn])).st = .fault ∧
    (takeFault .underrun (ready [stopTurn])).turns = .act (.writeReg 0 3) :: [] := by decide
/-- O35 and O36: command writes of the edge values, a read of every number, writes of the writable ones. -/
theorem test_witness_O35_O36 :
    (∀ v ∈ [(0 : Word), 1, 2, 3, 4], (ready [.act (.writeReg 0 v)]).turns = .act (.writeReg 0 v) :: []) ∧
    (∀ n ∈ [0, 1, 2, 3, 4, 5, 6, 7], (ready [.act (.readReg n)]).turns = .act (.readReg n) :: [] ∧
      (ready [.act (.writeReg n 9)]).turns = .act (.writeReg n 9) :: []) ∧ (ready []).st ≠ .idle ∧
    (show State from { State.reset with turns := [.act (.writeReg 5 9)] }).st = .idle :=
  ⟨fun _ _ => rfl, fun _ _ => ⟨rfl, rfl⟩, by decide, rfl⟩
/-- O36 and O37 in BUSY: reads pending, and a moment whose values are not the present ones. -/
theorem test_witness_O36_O37_busy : let s := { busy [0xFF, 0x07] 0 [] [] with turns := [.act (.readReg 2)] }
    s.turns = .act (.readReg 2) :: [] ∧ s.st = .busy ∧
    (decodeMoment 0 s).cursor = 0 ∧ (decodeMoment 1 s).cursor = 2 ∧ (decodeMoment 1 s).wp = 1 ∧
    (decodeMoment 9 s).cursor = 2 := ⟨rfl, rfl, rfl, rfl, rfl, rfl⟩
theorem test_witness_O37 : (ready [.act (.readReg 1)]).turns = .act (.readReg 1) :: [] := by decide
/-- O38: the last index of the frame in READY, the first one past it, and a state other than READY. -/
theorem test_witness_O38 : (ready [.act (.readWindow 63999)]).turns = .act (.readWindow 63999) :: [] ∧
    (ready [.act (.readWindow 63999)]).st = .ready ∧ (63999 : Nat) < 64000 ∧
    (ready [.act (.readWindow 64000)]).turns = .act (.readWindow 64000) :: [] ∧
    (show State from { State.reset with turns := [.act (.readWindow 0)] }).st ≠ .ready :=
  ⟨rfl, rfl, by omega, rfl, by decide⟩
/-- O39: a host store in IDLE and one outside it. -/
theorem test_witness_O39 : let s := { State.reset with turns := [HostTurn.act (.loadBs 0xFFFFFFFF 1)] }
    s.turns = .act (.loadBs 0xFFFFFFFF 1) :: [] ∧ s.st = .idle ∧
    (ready [.act (.loadBs 0 1)]).turns = .act (.loadBs 0 1) :: [] ∧ (ready [.act (.loadBs 0 1)]).st ≠ .idle :=
  ⟨rfl, rfl, rfl, by decide⟩
theorem test_witness_O40 : (ready [.act .powerOnReset]).turns = .act .powerOnReset :: [] := by decide
/-- O41: a file that is only a header of zeros, and a file of one literal, in the reset state (ST = IDLE). -/
theorem test_witness_O41 : State.reset.st = .idle ∧ (bootTurns (List.replicate 772 0)).isSome = true ∧
    (bootTurns (List.replicate 772 2 ++ [0xFF, 0x07])).isSome = true := by
  refine ⟨rfl, ?_, ?_⟩ <;> simp [bootTurns, fileBitstream, Config.headerBytes, -List.reduceReplicate]
theorem test_witness_O42 : (ready (tickTurns true .ready)).st = .ready ∧
    (ready (tickTurns true .ready)).turns = tickTurns true .ready ∧
    (ready (tickTurns false .ready)).turns = tickTurns false .ready := by decide
/-- O43: a faulted session, waiting and stopped. -/
theorem test_witness_O43 : ∀ r ∈ [([] : List HostTurn), [stopTurn]],
    (takeFault .backRange (ready r)).st = .fault ∧
    look (·.faultCode) (step (takeFault .backRange (ready r))) = some .backRange ∧
    (takeFault .backRange (ready r)).turns = r := by decide
/-- The invariant holds after reset with a frame count loaded, and with a fault on record in IDLE (after STOP). -/
theorem test_witness_inv_idle (count : Word) (code : FaultCode) (turns : List HostTurn) :
    Inv { State.reset with frameCount := count, faultCode := code, turns := turns } where
  wp_le := by show (0 : BitVec 16).toNat ≤ 64000; decide
  cursor_le := fun h => by rcases h with h | h | ⟨h, _⟩ <;> cases h
  ready_wp := fun h => by cases h
  index_lt := fun h => by rcases h with h | h <;> cases h
  open_code := fun h => by rcases h with h | h <;> cases h
  fault_code := fun h => by cases h
  eom_end := fun h => by cases h
  open_zeroed := fun h => by rcases h with h | h <;> cases h
  fb0_wf := by show Memory.wf ⟨.unknown 0, []⟩ ∧ Memory.within 64000 ⟨.unknown 0, []⟩; decide
  fb1_wf := by show Memory.wf ⟨.unknown 1, []⟩ ∧ Memory.within 64000 ⟨.unknown 1, []⟩; decide
  bs_wf := by show Memory.wf ⟨.unknown 2, []⟩ ∧ Memory.within (2 ^ 32) ⟨.unknown 2, []⟩; decide

/-- O44: a fault on record, the invariant, and a step. -/
theorem test_witness_O44 : Inv { State.reset with frameCount := 0, faultCode := .config, turns := [] } ∧
    FaultCode.config ≠ .none ∧
    look (·.faultCode) (step { State.reset with frameCount := 0, faultCode := .config, turns := [] }) = some .config :=
  ⟨test_witness_inv_idle 0 .config [], by decide, rfl⟩
theorem test_witness_O45 : let s := { busy [] 64000 [] [(63999, 7)] with turns := [.yield, .act (.readWindow 63999)] }
    s.st = .busy ∧ s.wp.toNat = 64000 ∧ s.frameIndex.toNat + 2 < s.frameCount.toNat ∧ 63999 < 64000 ∧
    s.turns = [.yield, .act (.readWindow 63999)] := by decide
theorem test_witness_O46 :
    let s := { busy [0xFF, 0x07] 0 [] [] with turns := [.act (.writeReg 0 3), .act (.readReg 1)] }
    s.st = .busy ∧ s.turns = .act (.writeReg 0 3) :: [.act (.readReg 1)] ∧ HostOp.writeReg 0 3 ≠ .powerOnReset ∧
    look (·.st) (step s) = some .busy := by decide

/-- The invariant holds of a complete frame that is the last of its movie. -/
theorem test_witness_inv_complete (turns : List HostTurn) :
    Inv { busy [] 64000 [] [] with frameIndex := 1, turns := turns } where
  wp_le := by show (64000 : BitVec 16).toNat ≤ 64000; decide
  cursor_le := fun _ => by show (0 : BitVec 32).toNat ≤ _; exact Nat.zero_le _
  ready_wp := fun h => by cases h
  index_lt := fun _ => by show (1 : BitVec 32).toNat + 1 < (3 : BitVec 32).toNat; decide
  open_code := fun _ => rfl
  fault_code := fun h => by cases h
  eom_end := fun h => by cases h
  open_zeroed := fun _ => ⟨rfl, rfl⟩
  fb0_wf := by show Memory.wf ⟨.zero, []⟩ ∧ Memory.within 64000 ⟨.zero, []⟩; decide
  fb1_wf := by show Memory.wf ⟨.zero, []⟩ ∧ Memory.within 64000 ⟨.zero, []⟩; decide
  bs_wf := by show Memory.wf ⟨.unknown 2, []⟩ ∧ Memory.within (2 ^ 32) ⟨.unknown 2, []⟩; decide

/-- O47 and O48: a completion, an accepted START, a reset, and a step that is none of these, each with the invariant. -/
theorem test_witness_O47_O48 :
    (Inv { busy [] 64000 [] [] with frameIndex := 1, turns := [] } ∧
      look (fun t => (t.frameIndex, t.role, t.eom)) (step { busy [] 64000 [] [] with frameIndex := 1, turns := [] }) =
        some (2, .fb1, true)) ∧
    (Inv { State.reset with frameCount := 2, faultCode := .config, turns := [startTurn] } ∧
      look (fun t => (t.frameIndex, t.role, t.st))
        (step { State.reset with frameCount := 2, faultCode := .config, turns := [startTurn] }) =
        some (0, .fb0, .ready)) ∧
    (Inv (ready [.act .powerOnReset]) ∧ look (·.frameIndex) (step (ready [.act .powerOnReset])) = some 0) ∧
    (Inv (ready [stopTurn]) ∧ look (·.st) (step (ready [stopTurn])) = some .idle) :=
  ⟨⟨test_witness_inv_complete [], rfl⟩, ⟨test_witness_inv_idle 2 .config _, rfl⟩, ⟨test_witness_inv_ready _, rfl⟩,
    ⟨test_witness_inv_ready _, rfl⟩⟩
/-- O49: a command that clears the flag, a transaction that leaves it, a copy that sets it, with and without a yield, and a literal
in the same place, which does not. -/
theorem test_witness_O49 :
    look (·.clamped) (step { ready [decodeTurn] with clamped := true }) = some false ∧
    look (·.clamped) (step { ready [stopTurn] with clamped := true }) = some true ∧
    look (fun t => (t.clamped, t.wp)) (step (busy [0x00, 0x02, 0x85] 63998 [] [])) = some (true, 64000) ∧
    (busy [0x00, 0x02, 0x85] 63998 [] []).turns = [] ∧
    (busy [0x00, 0x02, 0x85] 63998 [] []).st = .busy ∧ (busy [0x00, 0x02, 0x85] 63998 [] []).wp.toNat < 64000 ∧
    fetch (busy [0x00, 0x02, 0x85] 63998 [] []) = .ok (.tcs 10 5) ∧ (Instr.tcs 10 5).copyLength = some 5 ∧
    look (fun t => (t.clamped, t.wp)) (step { busy [0x00, 0x02, 0x85] 63998 [] [] with turns := [.yield] }) =
      some (true, 64000) ∧
    look (fun t => (t.clamped, t.wp)) (step (busy [0xFF, 0x07] 63999 [] [])) = some (false, 64000) :=
  ⟨rfl, rfl, rfl, rfl, rfl, by decide, rfl, rfl, rfl, rfl⟩

/-- The invariant holds of a faulted session. -/
theorem test_witness_inv_fault (turns : List HostTurn) : Inv (takeFault .backRange (ready turns)) where
  wp_le := by show (0 : BitVec 16).toNat ≤ 64000; decide
  cursor_le := fun _ => by show (0 : BitVec 32).toNat ≤ _; exact Nat.zero_le _
  ready_wp := fun h => by cases h
  index_lt := fun h => by rcases h with h | h <;> cases h
  open_code := fun h => by rcases h with h | h <;> cases h
  fault_code := fun _ h => by cases h
  eom_end := fun h => by cases h
  open_zeroed := fun h => by rcases h with h | h <;> cases h
  fb0_wf := (test_witness_inv_ready turns).fb0_wf
  fb1_wf := (test_witness_inv_ready turns).fb1_wf
  bs_wf := (test_witness_inv_ready turns).bs_wf

/-- O50: each of the three ways, with the invariant before. -/
theorem test_witness_O50 :
    (Inv { busy [] 64000 [] [] with frameIndex := 1, turns := [] } ∧
      look (fun t => (t.st, sessionEnd t)) (step { busy [] 64000 [] [] with frameIndex := 1, turns := [] }) =
        some (.idle, some .endOfMovie)) ∧
    (Inv (ready [stopTurn]) ∧ look (fun t => (t.st, sessionEnd t)) (step (ready [stopTurn])) =
      some (.idle, some .stopped)) ∧
    (Inv (takeFault .backRange (ready [stopTurn])) ∧
      look (fun t => (t.st, sessionEnd t)) (step (takeFault .backRange (ready [stopTurn]))) =
        some (.idle, some .faulted)) :=
  ⟨⟨test_witness_inv_complete [], rfl⟩, ⟨test_witness_inv_ready _, rfl⟩, ⟨test_witness_inv_fault _, rfl⟩⟩

/-- O51: a state of a DECODE whose present values are those of moment 0, with a step to moment 1. -/
theorem test_witness_O51 : OnTheTrail (busy [0xFF, 0x07] 0 [] []) ∧
    look (fun t => (t.st, t.cursor)) (step (busy [0xFF, 0x07] 0 [] [])) = some (.busy, 2) :=
  ⟨fun _ => ⟨0, rfl, rfl, rfl⟩, rfl⟩
/-- O52: an acceptance at a CURSOR below BS_LEN, and at BS_LEN. -/
theorem test_witness_O52 : ∀ bytes ∈ [([] : List Byte), [0xFF, 0x07]],
    (busy bytes 0 [] []).st = .busy ∧ (busy bytes 0 [] []).decodeFrom.toNat ≤ (busy bytes 0 [] []).bsLen.toNat := by decide

end Sys2Proof.Tests
end

section
/-! PROOFS. The family 10_state.md: the inductive invariant holds at reset and every step keeps it (R32), and the writers of
the session's registers are told apart once for every step (R16, R18, R22, R30, R31). -/

namespace Sys2Proof.Machine

open Sys2Proof

/-! ### The frame buffers by ROLE -/

theorem ref_out_of_role_fb0 {s : State} (h : s.role = .fb0) : s.ref = s.fb0 ∧ s.out = s.fb1 := by
  simp [State.ref, State.out, State.fb, Buf.other, h]

theorem ref_out_of_role_fb1 {s : State} (h : s.role = .fb1) : s.ref = s.fb1 ∧ s.out = s.fb0 := by
  simp [State.ref, State.out, State.fb, Buf.other, h]

/-- What holds of REF and of OUT is what holds of the two physical buffers. -/
theorem ref_and_out_iff (P : Memory → Prop) (s : State) : P s.ref ∧ P s.out ↔ P s.fb0 ∧ P s.fb1 := by
  cases h : s.role
  · obtain ⟨hr, ho⟩ := ref_out_of_role_fb0 h
    rw [hr, ho]
  · obtain ⟨hr, ho⟩ := ref_out_of_role_fb1 h
    rw [hr, ho, and_comm]

theorem Committed.ref {size : Nat} {s t : State} (h : Committed size s t) : t.ref = s.ref := by
  simpa [State.ref, h.frame.role] using h.frame.reference

/-! ### The host's commands, one equation per outcome -/

/-- START with FRAME_COUNT at least 2 opens a blank session (44_host_commands.md R146, 10_state.md R31). -/
theorem cmdStart_opens {s : State} (h : 2 ≤ s.frameCount.toNat) : cmdStart s =
    { s with
      fb0 := .zeroed, fb1 := .zeroed, role := .fb0, cursor := 0#32, wp := 0#16, frameIndex := 0#32,
      clamped := false, eom := false, faultCode := .none, st := .ready } := by
  simp [cmdStart, Nat.not_lt.2 h]

/-- START with FRAME_COUNT 0 or 1 is refused (60_exceptions.md R177). -/
theorem cmdStart_refuses {s : State} (h : s.frameCount.toNat < 2) :
    cmdStart s = takeFault .config { s with clamped := false, eom := false } := by
  simp [cmdStart, h]

/-- What START writes of ROLE, FRAME_INDEX and EOM: it clears EOM either way, and the other two only as it opens a session. -/
theorem cmdStart_cases (s : State) :
    (2 ≤ s.frameCount.toNat ∧ (cmdStart s).role = .fb0 ∧ (cmdStart s).frameIndex = 0 ∧ (cmdStart s).eom = false) ∨
    (s.frameCount.toNat < 2 ∧ (cmdStart s).role = s.role ∧ (cmdStart s).frameIndex = s.frameIndex ∧
      (cmdStart s).eom = false) := by
  by_cases h : s.frameCount.toNat < 2
  · rw [cmdStart_refuses h]
    exact .inr ⟨h, rfl, rfl, rfl⟩
  · rw [cmdStart_opens (Nat.not_lt.1 h)]
    exact .inl ⟨Nat.not_lt.1 h, rfl, rfl, rfl⟩

/-- A CMD write of START in IDLE is accepted (44_host_commands.md R150). -/
theorem step_start {s : State} {turns : List HostTurn} (ht : s.turns = .act (.writeReg 0 1) :: turns)
    (hst : s.st = .idle) : step s = .next (cmdStart { s with turns := turns }) := by
  rw [step_act ht]
  simp [hostAct, writeReg, HostReg.ofNumber, writeCmd, hst]

theorem step_powerOnReset {s : State} {turns : List HostTurn} (ht : s.turns = .act .powerOnReset :: turns) :
    step s = .next (powerOnReset { s with turns := turns }) := by
  rw [step_act ht]; rfl

/-! ### Whose turn it is -/

/-- The FBD moves next: no host turn is pending, or the host yields (log entry 4). -/
def FbdMoves (s : State) : Prop := s.turns = [] ∨ ∃ turns, s.turns = .yield :: turns

theorem FbdMoves.not_act {s : State} (h : FbdMoves s) (op : HostOp) : ¬∃ turns, s.turns = .act op :: turns := by
  rintro ⟨r, hr⟩
  obtain h | ⟨r', h⟩ := h <;> rw [h] at hr <;> cases hr

/-- A step is the FBD's move, of the state with the yield consumed, or a host transaction. -/
theorem step_agent_cases (s : State) :
    (FbdMoves s ∧ ∃ r, step s = fbdMove { s with turns := r }) ∨ ∃ op r, s.turns = .act op :: r := by
  cases ht : s.turns with
  | nil => exact .inl ⟨.inl ht, [], by rw [step_no_turns ht, ← ht]⟩
  | cons turn r =>
    cases turn with
    | yield => exact .inl ⟨.inr ⟨r, ht⟩, r, step_yield ht⟩
    | act op => exact .inr ⟨op, r, rfl⟩

end Sys2Proof.Machine

namespace Sys2Proof

open Machine

/-! ### The invariant by state of the block -/

/-- The invariant's clauses on memories: canonical form, and every listed address inside the space. -/
def MemoriesInForm (s : State) : Prop :=
  (s.fb0.wf ∧ s.fb0.within 64000) ∧ (s.fb1.wf ∧ s.fb1.within 64000) ∧ (s.bs.wf ∧ s.bs.within (2 ^ 32))

theorem Inv.memories {s : State} (h : Inv s) : MemoriesInForm s := ⟨h.fb0_wf, h.fb1_wf, h.bs_wf⟩

theorem St.not_open_of_idle {st : St} (h : st = .idle) : ¬(st = .ready ∨ st = .busy) := by simp [h]

theorem St.not_open_of_fault {st : St} (h : st = .fault) : ¬(st = .ready ∨ st = .busy) := by simp [h]

/-- In IDLE the invariant asks for WP's range, no recorded fault with EOM, and the memories. -/
theorem Inv.of_idle {s : State} (hst : s.st = .idle) (hwp : s.wp.toNat ≤ 64000)
    (heom : s.eom = true → s.faultCode = .none) (hmem : MemoriesInForm s) : Inv s where
  wp_le := hwp
  cursor_le h := by simp [hst] at h
  ready_wp h := absurd (.inl h) (St.not_open_of_idle hst)
  index_lt h := absurd h (St.not_open_of_idle hst)
  open_code h := absurd h (St.not_open_of_idle hst)
  fault_code h := by simp [hst] at h
  eom_end he := ⟨hst, heom he⟩
  open_zeroed h := absurd h (St.not_open_of_idle hst)
  fb0_wf := hmem.1
  fb1_wf := hmem.2.1
  bs_wf := hmem.2.2

/-- In FAULT it asks for a code, and for CURSOR's bound unless the code is F_CONFIG. -/
theorem Inv.of_fault {s : State} (hst : s.st = .fault) (hwp : s.wp.toNat ≤ 64000) (hcode : s.faultCode ≠ .none)
    (hcur : s.faultCode ≠ .config → s.cursor.toNat ≤ s.bsLen.toNat) (heom : s.eom = false)
    (hmem : MemoriesInForm s) : Inv s where
  wp_le := hwp
  cursor_le h := hcur (by simpa [hst] using h)
  ready_wp h := absurd (.inl h) (St.not_open_of_fault hst)
  index_lt h := absurd h (St.not_open_of_fault hst)
  open_code h := absurd h (St.not_open_of_fault hst)
  fault_code _ := hcode
  eom_end he := absurd he (by simp [heom])
  open_zeroed h := absurd h (St.not_open_of_fault hst)
  fb0_wf := hmem.1
  fb1_wf := hmem.2.1
  bs_wf := hmem.2.2

/-- In READY and BUSY a session is open, without a recorded fault and short of the last frame. -/
theorem Inv.of_open {s : State} (hst : s.st = .ready ∨ s.st = .busy) (hwp : s.wp.toNat ≤ 64000)
    (hready : s.st = .ready → s.wp.toNat = 0 ∨ s.wp.toNat = 64000) (hcur : s.cursor.toNat ≤ s.bsLen.toNat)
    (hidx : s.frameIndex.toNat + 1 < s.frameCount.toNat) (hcode : s.faultCode = .none) (heom : s.eom = false)
    (hzero : s.fb0.fill = .zero ∧ s.fb1.fill = .zero) (hmem : MemoriesInForm s) : Inv s where
  wp_le := hwp
  cursor_le _ := hcur
  ready_wp := hready
  index_lt _ := hidx
  open_code _ := hcode
  fault_code h := by simp [h] at hst
  eom_end he := absurd he (by simp [heom])
  open_zeroed _ := hzero
  fb0_wf := hmem.1
  fb1_wf := hmem.2.1
  bs_wf := hmem.2.2

/-- The invariant speaks of the block alone: the host's turns and replies and the count of free values are left open. -/
theorem Inv.of_agents {s : State} (h : Inv s) (turns : List HostTurn) (replies : List Reply) (draws : Nat) :
    Inv { s with turns := turns, replies := replies, draws := draws } :=
  { h with }

theorem Inv.eom_false {s : State} (h : Inv s) (hst : s.st ≠ .idle) : s.eom = false := by
  cases he : s.eom
  · rfl
  · exact absurd (h.eom_end he).1 hst

/-! ### The FBD's moves keep the invariant -/

/-- The entry of an instruction's fault keeps the invariant (60_exceptions.md R179). -/
theorem Inv.takeFault {s : State} {c : FaultCode} (h : Inv s) (hst : s.st = .busy) (hc : c ≠ .none) :
    Inv (takeFault c s) :=
  .of_fault rfl h.wp_le hc (fun _ => h.cursor_le (.inr (.inl hst))) (h.eom_false (by simp [hst])) h.memories

/-- The commit of an instruction that lies before BS_LEN keeps the invariant (40_instruction_cycle.md R104, R111). -/
theorem Inv.committed {s t : State} {size : Nat} (h : Inv s) (hst : s.st = .busy) (hc : Committed size s t)
    (hb : s.cursor.toNat + size ≤ s.bsLen.toNat) : Inv t := by
  have ht : t.st = .busy := hc.frame.st.trans hst
  have hcur : t.cursor.toNat ≤ t.bsLen.toNat := by
    rw [hc.cursor, hc.frame.bsLen]
    exact (Nat.mod_le ..).trans hb
  have hidx : t.frameIndex.toNat + 1 < t.frameCount.toNat := by
    rw [hc.frame.frameIndex, hc.frame.frameCount]
    exact h.index_lt (.inr hst)
  obtain ⟨hrefz, houtz⟩ := (ref_and_out_iff (·.fill = .zero) s).2 (h.open_zeroed (.inr hst))
  obtain ⟨hrefwf, hout⟩ := (ref_and_out_iff (fun m => m.wf ∧ m.within 64000) s).2 ⟨h.fb0_wf, h.fb1_wf⟩
  have hzero := (ref_and_out_iff (·.fill = .zero) t).1 ⟨hc.ref ▸ hrefz, hc.out_fill.trans houtz⟩
  have hwf := (ref_and_out_iff (fun m => m.wf ∧ m.within 64000) t).1 ⟨hc.ref ▸ hrefwf, hc.out_wf hout.1 hout.2⟩
  exact .of_open (.inr ht) (hc.wp_le h.wp_le) (by simp [ht]) hcur hidx
    (hc.frame.faultCode.trans (h.open_code (.inr hst))) (hc.frame.eom.trans (h.eom_false (by simp [hst]))) hzero
    ⟨hwf.1, hwf.2, hc.frame.bs ▸ h.bs_wf⟩

/-- Frame completion keeps the invariant: it ends the movie or leaves a further frame to decode (44_host_commands.md R148). -/
theorem Inv.completeFrame {s : State} (h : Inv s) (hst : s.st = .busy) (hwp : s.wp.toNat = 64000) :
    Inv (completeFrame s) := by
  have hidx := h.index_lt (.inr hst)
  obtain ⟨hsucc, hlast⟩ := lastFrame_succ hidx
  rcases completeFrame_cases s with ⟨_, he⟩ | ⟨hl, he⟩ <;> rw [he]
  · exact .of_idle rfl h.wp_le (fun _ => h.open_code (.inr hst)) h.memories
  · rw [hlast, decide_eq_false_iff_not] at hl
    refine .of_open (.inl rfl) h.wp_le (fun _ => .inr hwp) (h.cursor_le (.inr (.inl hst))) ?_
      (h.open_code (.inr hst)) (h.eom_false (by simp [hst])) (h.open_zeroed (.inr hst)) h.memories
    show (s.frameIndex + 1#32).toNat + 1 < s.frameCount.toNat
    omega

theorem Inv.fbdMove {s t : State} (h : Inv s) (hm : fbdMove s = .next t) : Inv t := by
  by_cases hst : s.st = .busy
  · rw [fbdMove_busy hst] at hm
    split at hm
    · next hlt =>
      obtain ⟨u, hu, hcase⟩ := instrStep_cases s hlt
      obtain rfl : u = t := by simpa [hu] using hm
      obtain ⟨i, size, _, _, hb, hc⟩ | ⟨c, hc, _, rfl⟩ := hcase
      · exact h.committed hst hc hb
      · exact h.takeFault hst hc
    · split at hm
      · next hwp => cases hm; exact h.completeFrame hst hwp
      · cases hm
  · rw [fbdMove_waits hst] at hm
    cases hm
    exact h

/-! ### The host's transactions keep the invariant -/

theorem Inv.cmdStart {s : State} (h : Inv s) : Inv (cmdStart s) := by
  by_cases hn : s.frameCount.toNat < 2
  · rw [cmdStart_refuses hn]
    exact .of_fault rfl h.wp_le (by simp) (by simp) rfl h.memories
  · have hz := And.intro Memory.wf_zeroed (Memory.within_zeroed 64000)
    rw [cmdStart_opens (Nat.not_lt.1 hn)]
    exact .of_open (.inl rfl) (by simp) (fun _ => .inl rfl) (by simp) (Nat.not_lt.1 hn) rfl rfl ⟨rfl, rfl⟩ ⟨hz, hz, h.bs_wf⟩

theorem Inv.cmdDecode {s : State} (h : Inv s) (hst : s.st = .ready) : Inv (cmdDecode s) :=
  .of_open (.inr rfl) (Nat.zero_le _) (fun _ => .inl rfl) (h.cursor_le (.inl hst)) (h.index_lt (.inl hst))
    (h.open_code (.inl hst)) (h.eom_false (by simp [hst])) (h.open_zeroed (.inl hst)) h.memories

theorem Inv.cmdStop {s : State} (h : Inv s) : Inv (cmdStop s) :=
  .of_idle rfl h.wp_le (fun he => (h.eom_end he).2) h.memories

theorem Inv.writeCmd {s : State} (h : Inv s) (v : Word) : Inv (writeCmd v s) := by
  rcases writeCmd_cases v s with ⟨_, _, he⟩ | ⟨hst, _, he⟩ | ⟨_, _, he⟩ | he <;> rw [he]
  · exact h.cmdStart
  · exact h.cmdDecode hst
  · exact h.cmdStop
  · exact h

theorem Inv.writeReg {s : State} (h : Inv s) (n : Nat) (v : Word) : Inv (writeReg n v s) := by
  have heom : s.eom = true → s.faultCode = .none := fun he => (h.eom_end he).2
  rcases writeReg_cases n v s with he | ⟨hst, he⟩ | ⟨hst, he⟩ | he <;> rw [he]
  · exact h.writeCmd v
  · exact .of_idle hst h.wp_le heom h.memories
  · exact .of_idle hst h.wp_le heom h.memories
  · exact h

theorem Inv.readWindow {s : State} (h : Inv s) (index : Nat) : Inv (readWindow index s) := by
  unfold Machine.readWindow
  split
  · exact h.of_agents ..
  · exact h.of_agents ..

/-- A store into the bitstream memory, in IDLE and at a 32-bit offset, keeps the invariant. -/
theorem Inv.loadBs {s t : State} {offset : Offset} {value : Byte} (h : Inv s)
    (hl : loadBs offset value s = .next t) : Inv t := by
  unfold Machine.loadBs at hl
  split at hl
  · next hst =>
    cases hl
    exact .of_idle hst h.wp_le (fun he => (h.eom_end he).2)
      ⟨h.fb0_wf, h.fb1_wf, Memory.wf_set _ _ _ h.bs_wf.1, Memory.within_set _ _ _ h.bs_wf.2 offset.isLt⟩
  · cases hl

theorem inv_powerOnReset (s : State) : Inv (powerOnReset s) := by
  have hmem (size draw : Nat) : Memory.wf ⟨.unknown draw, []⟩ ∧ Memory.within size ⟨.unknown draw, []⟩ :=
    ⟨Memory.wf_empty _, by simp⟩
  exact .of_idle rfl (Nat.zero_le _) (fun _ => rfl) ⟨hmem .., hmem .., hmem ..⟩

theorem Inv.hostAct {s t : State} {op : HostOp} (h : Inv s) (ha : hostAct op s = .next t) : Inv t := by
  cases op with
  | writeReg n v => cases ha; exact h.writeReg n v
  | readReg n => cases ha; exact h.of_agents ..
  | readWindow index => cases ha; exact h.readWindow index
  | loadBs offset value => exact h.loadBs ha
  | powerOnReset => cases ha; exact inv_powerOnReset _

/-! ### Every reachable state meets the invariant -/

theorem inv_reset (turns : List HostTurn) : Inv { State.reset with turns := turns } := by
  obtain ⟨h0, h1, hbs⟩ := reset_wf
  exact .of_idle rfl (Nat.zero_le _) (fun _ => rfl) ⟨⟨h0, by simp [State.reset]⟩, ⟨h1, by simp [State.reset]⟩,
    hbs, by simp [State.reset]⟩

theorem step_keeps_inv {s t : State} (h : Inv s) (hs : step s = .next t) : Inv t := by
  rcases step_agent_cases s with ⟨_, r, hr⟩ | ⟨op, r, ht⟩
  · exact (h.of_agents r ..).fbdMove (hr.symm.trans hs)
  · exact (h.of_agents r ..).hostAct ((step_act ht).symm.trans hs)

theorem runSteps_keeps_inv {k : Nat} : ∀ {s t : State}, Inv s → runSteps k s = .next t → Inv t := by
  induction k with
  | zero => intro s t h hr; cases hr; exact h
  | succ k ih =>
    intro s t h hr
    obtain ⟨u, hu, hrest⟩ := runSteps_succ_next hr
    exact ih (step_keeps_inv h hu) hrest

theorem Reachable.inv {s : State} (h : Reachable s) : Inv s := by
  obtain ⟨turns, k, hr⟩ := h
  exact runSteps_keeps_inv (inv_reset turns) hr

/-- The inductive invariant implies the five invariants as 10_state.md R32 words them. -/
theorem Inv.stated {s : State} (h : Inv s) : StatedInvariants s where
  wp_range := h.wp_le
  cursor_range := h.cursor_le
  ready_shape hst := ⟨h.ready_wp hst, by have := h.index_lt (.inl hst); omega, h.open_code (.inl hst)⟩
  fault_coded := h.fault_code
  eom_idle he := (h.eom_end he).1

/-- Settles O28: the inductive invariant holds at reset and every step keeps it. -/
theorem reachableStatesMeetTheStatedInvariants : Obligations.ReachableStatesMeetTheStatedInvariants :=
  fun _ h => h.inv.stated

/-! ### What a step writes of the session's registers -/

/-- The next step is frame completion (44_host_commands.md R148). -/
def CompletesFrame (s : State) : Prop := s.st = .busy ∧ s.wp.toNat = 64000 ∧ FbdMoves s

/-- The next step is START in IDLE, which opens a session or is refused (44_host_commands.md R146). -/
def StartsInIdle (s : State) : Prop := s.st = .idle ∧ ∃ turns, s.turns = .act (.writeReg 0 1) :: turns

/-- The next step is a power-on reset (70_reset_and_hazards.md R200). -/
def ResetsNext (s : State) : Prop := ∃ turns, s.turns = .act .powerOnReset :: turns

theorem CompletesFrame.not_start {s : State} (h : CompletesFrame s) : ¬StartsInIdle s :=
  fun hs => h.2.2.not_act _ hs.2

theorem CompletesFrame.not_reset {s : State} (h : CompletesFrame s) : ¬ResetsNext s := h.2.2.not_act _

theorem StartsInIdle.not_reset {s : State} (h : StartsInIdle s) : ¬ResetsNext s := by
  rintro ⟨r, hr⟩
  obtain ⟨_, r', hs⟩ := h
  rw [hs] at hr
  cases hr

/-- The kinds of step by what they write of ROLE, FRAME_INDEX and EOM: frame completion, a START that opens a session, a
START that is refused, a reset, or a step that leaves all three. -/
inductive SessionStep (s t : State) : Prop where
  | completes (now : CompletesFrame s) (role : t.role = s.role.other) (index : t.frameIndex = s.frameIndex + 1#32)
      (eom : t.eom = (s.eom || lastFrame (s.frameIndex + 1#32) s.frameCount))
  | opens (now : StartsInIdle s) (count : 2 ≤ s.frameCount.toNat) (role : t.role = .fb0) (index : t.frameIndex = 0)
      (eom : t.eom = false)
  | refuses (now : StartsInIdle s) (count : s.frameCount.toNat < 2) (role : t.role = s.role)
      (index : t.frameIndex = s.frameIndex) (eom : t.eom = false)
  | resets (now : ResetsNext s) (role : t.role = .fb0) (index : t.frameIndex = 0) (eom : t.eom = false)
  | keeps (notCompletes : ¬CompletesFrame s) (notStarts : ¬StartsInIdle s) (notResets : ¬ResetsNext s)
      (role : t.role = s.role) (index : t.frameIndex = s.frameIndex) (eom : t.eom = s.eom)

/-- The FBD's step is frame completion, or keeps the session's registers. -/
theorem sessionStep_of_fbdMove {s t : State} {r : List HostTurn} (hf : FbdMoves s)
    (h : fbdMove { s with turns := r } = .next t) : SessionStep s t := by
  rcases fbdMove_cases h with ⟨hst, hwp, rfl⟩ | ⟨hn, hrole, hidx, heom, _⟩
  · exact .completes ⟨hst, hwp, hf⟩ rfl rfl rfl
  · exact .keeps (fun hc => hn ⟨hc.1, hc.2.1⟩) (fun hs => hf.not_act _ hs.2) (hf.not_act _) hrole hidx heom

/-- The host's transaction is START in IDLE, a reset, or keeps the session's registers. -/
theorem sessionStep_of_act {s t : State} {op : HostOp} {r : List HostTurn} (ht : s.turns = .act op :: r)
    (h : step s = .next t) : SessionStep s t := by
  have hop {op' : HostOp} (hx : ∃ turns, s.turns = .act op' :: turns) : op = op' := by
    obtain ⟨r', hr'⟩ := hx
    simpa using (List.cons.inj (ht.symm.trans hr')).1
  have hnc : ¬CompletesFrame s := fun hc => hc.2.2.not_act op ⟨r, ht⟩
  rcases hostTurn_cases ht h with ⟨rfl, hst, rfl⟩ | ⟨rfl, _, rfl⟩ | ⟨rfl, rfl⟩ | ⟨hns, _, hnr, hrole, hidx, heom, _⟩
  · rcases cmdStart_cases { s with turns := r } with ⟨hn, hrole, hidx, heom⟩ | ⟨hn, hrole, hidx, heom⟩
    · exact .opens ⟨hst, r, ht⟩ hn hrole hidx heom
    · exact .refuses ⟨hst, r, ht⟩ hn hrole hidx heom
  · exact .keeps hnc (fun hs => by cases hop hs.2) (fun hr => by cases hop hr) rfl rfl rfl
  · exact .resets ⟨r, ht⟩ rfl rfl rfl
  · exact .keeps hnc (fun hs => hns ⟨hop hs.2, hs.1⟩) (fun hr => hnr (hop hr)) hrole hidx heom

theorem sessionStep_of_step {s t : State} (h : step s = .next t) : SessionStep s t := by
  rcases step_agent_cases s with ⟨hf, r, hr⟩ | ⟨op, r, ht⟩
  · exact sessionStep_of_fbdMove hf (hr.symm.trans h)
  · exact sessionStep_of_act ht h

/-- Settles O47: each kind of step by what it writes of ROLE and FRAME_INDEX. -/
theorem roleAndIndexChangeAtCompletion : Obligations.RoleAndIndexChangeAtCompletion := by
  refine ⟨fun s => ⟨ref_out_of_role_fb0, ref_out_of_role_fb1⟩, fun s t hinv h => ?_⟩
  intro completes opens resets
  have hopens : opens → StartsInIdle s := fun ho => ⟨ho.1, ho.2.2⟩
  cases sessionStep_of_step h with
  | completes hc hrole hidx _ =>
    have hlt := hinv.index_lt (.inr hc.1)
    have hsucc : t.frameIndex.toNat = s.frameIndex.toNat + 1 := hidx ▸ (lastFrame_succ hlt).1
    refine ⟨fun _ => ⟨hrole, hsucc, by omega⟩, fun ho => ?_, fun hnone => absurd hc hnone.1⟩
    exact ho.elim (fun ho => absurd (hopens ho) hc.not_start) (fun hr => absurd hr hc.not_reset)
  | opens hs hn hrole hidx _ =>
    exact ⟨fun hc => absurd hs (CompletesFrame.not_start hc), fun _ => ⟨hrole, hidx⟩,
      fun hnone => absurd ⟨hs.1, hn, hs.2⟩ hnone.2.1⟩
  | refuses hs hn hrole hidx _ =>
    refine ⟨fun hc => absurd hs (CompletesFrame.not_start hc), fun ho => ?_, fun _ => ⟨hrole, hidx⟩⟩
    exact ho.elim (fun ho => absurd ho.2.1 (Nat.not_le.2 hn)) (fun hr => absurd hr hs.not_reset)
  | resets hr hrole hidx _ =>
    exact ⟨fun hc => absurd hr (CompletesFrame.not_reset hc), fun _ => ⟨hrole, hidx⟩,
      fun hnone => absurd hr hnone.2.2⟩
  | keeps hnc hns hnr hrole hidx _ =>
    refine ⟨fun hc => absurd hc hnc, fun ho => ?_, fun _ => ⟨hrole, hidx⟩⟩
    exact ho.elim (fun ho => absurd (hopens ho) hns) (fun hr => absurd hr hnr)

/-- EOM is to be 1 after the step: the movie's last frame completes, or EOM is 1 and neither START nor a reset comes next. -/
def EomAfter (s : State) : Prop :=
  (s.st = .busy ∧ s.wp.toNat = 64000 ∧ s.frameIndex.toNat + 2 = s.frameCount.toNat ∧ FbdMoves s) ∨
    (s.eom = true ∧ ¬(∃ turns, s.turns = .act (.writeReg 0 1) :: turns) ∧ ¬ResetsNext s)

theorem eomAfter_iff_of_completes {s : State} (hc : CompletesFrame s) (he : s.eom = false) :
    EomAfter s ↔ s.frameIndex.toNat + 2 = s.frameCount.toNat := by
  obtain ⟨hst, hwp, hf⟩ := hc
  simp [EomAfter, hst, hwp, hf, he]

theorem StartsInIdle.not_eomAfter {s : State} (h : StartsInIdle s) : ¬EomAfter s := by
  rintro (⟨hst, hwp, _, hf⟩ | ⟨_, hns, _⟩)
  · exact CompletesFrame.not_start ⟨hst, hwp, hf⟩ h
  · exact hns h.2

theorem ResetsNext.not_eomAfter {s : State} (h : ResetsNext s) : ¬EomAfter s := by
  rintro (⟨hst, hwp, _, hf⟩ | ⟨_, _, hnr⟩)
  · exact CompletesFrame.not_reset ⟨hst, hwp, hf⟩ h
  · exact hnr h

/-- Settles O48: each kind of step by what it writes of EOM; as EOM implies IDLE, a START that meets it is accepted. -/
theorem eomMarksTheEndOfTheMovie : Obligations.EomMarksTheEndOfTheMovie := by
  intro s t hinv h
  refine ⟨fun he => ((step_keeps_inv hinv h).eom_end he).1, ?_⟩
  show t.eom = true ↔ EomAfter s
  cases sessionStep_of_step h with
  | completes hc _ _ heom =>
    have hclear : s.eom = false := hinv.eom_false (by simp [hc.1])
    have hlast := (lastFrame_succ (hinv.index_lt (.inr hc.1))).2
    rw [heom, eomAfter_iff_of_completes hc hclear, hclear, hlast, Bool.false_or, decide_eq_true_iff]
  | opens hs _ _ _ heom => exact iff_of_false (by simp [heom]) hs.not_eomAfter
  | refuses hs _ _ _ heom => exact iff_of_false (by simp [heom]) hs.not_eomAfter
  | resets hr _ _ heom => exact iff_of_false (by simp [heom]) hr.not_eomAfter
  | keeps hnc hns hnr _ _ heom =>
    rw [heom]
    refine ⟨fun he => .inr ⟨he, fun hs => hns ⟨(hinv.eom_end he).1, hs⟩, hnr⟩, ?_⟩
    rintro (⟨hst, hwp, _, hf⟩ | ⟨he, _⟩)
    · exact absurd ⟨hst, hwp, hf⟩ hnc
    · exact he

/-- Settles O32: the next state is the one START opens, read field by field. -/
theorem startOpensABlankSession : Obligations.StartOpensABlankSession := by
  intro s turns ht hst hcount
  have hopens := cmdStart_opens (s := { s with turns := turns }) hcount
  exact ⟨_, (step_start ht hst).trans (congrArg _ hopens), Memory.byte_zeroed, Memory.byte_zeroed,
    rfl, rfl, rfl, rfl, rfl, rfl, rfl, rfl, rfl, rfl, rfl, rfl, rfl⟩

/-- Settles O40: the reset event takes every register from the reset state. -/
theorem powerOnResetValues : Obligations.PowerOnResetValues := by
  unfold Obligations.PowerOnResetValues
  intro AtReset
  have hreset : AtReset State.reset := ⟨rfl, rfl, rfl, rfl, rfl, rfl, rfl, rfl, rfl, rfl⟩
  exact ⟨hreset, fun _ _ ht => ⟨_, step_powerOnReset ht, hreset⟩⟩

end Sys2Proof
end

section
/-! PROOFS. The family 20_memory.md: the fields of an instruction are masks and shifts of the number its bytes form (R48), and
a self copy's loads see the stores of the bytes before them (R55). -/

namespace Sys2Proof

/-! ### The decoder, one equation per format -/

section Formats
variable {b0 : Byte} (b1 b2 b3 : Byte) (r : List Byte)

theorem decode_lit (h : classify b0 = .lit) :
    decode (b0 :: b1 :: r) = .ok (fieldsLit (word16 b0 b1), r) := by
  simp [decode, h]

theorem decode_tcs (h : classify b0 = .tcs) :
    decode (b0 :: b1 :: b2 :: r) = .ok (fieldsTcs (word24 b0 b1 b2), r) := by
  simp [decode, h]

theorem decode_tcl (h : classify b0 = .tcl) :
    decode (b0 :: b1 :: b2 :: b3 :: r) = .ok (fieldsTcl (word32 b0 b1 b2 b3), r) := by
  simp [decode, h]

theorem decode_scs (h : classify b0 = .scs) :
    decode (b0 :: b1 :: r) = .ok (fieldsScs (word16 b0 b1), r) := by
  simp [decode, h]

theorem decode_scl (h : classify b0 = .scl) :
    decode (b0 :: b1 :: b2 :: r) = .ok (fieldsScl (word24 b0 b1 b2), r) := by
  simp [decode, h]

theorem decode_sca (h : classify b0 = .sca) :
    decode (b0 :: b1 :: b2 :: b3 :: r) = .ok (fieldsSca (word32 b0 b1 b2 b3), r) := by
  simp [decode, h]

end Formats

/-! ### A field of the assembled word, from its bytes -/

section Fields
variable (b0 b1 b2 b3 : Byte) (start len : Nat)

theorem word16_field : ((word16 b0 b1).extractLsb' start len).toNat =
    ((b0.toNat * 256 + b1.toNat) >>> start) &&& (2 ^ len - 1) := by
  rw [extract_toNat, word16_toNat]

theorem word24_field : ((word24 b0 b1 b2).extractLsb' start len).toNat =
    ((b0.toNat * 65536 + b1.toNat * 256 + b2.toNat) >>> start) &&& (2 ^ len - 1) := by
  rw [extract_toNat, word24_toNat]

theorem word32_field : ((word32 b0 b1 b2 b3).extractLsb' start len).toNat =
    ((b0.toNat * 16777216 + b1.toNat * 65536 + b2.toNat * 256 + b3.toNat) >>> start) &&& (2 ^ len - 1) := by
  rw [extract_toNat, word32_toNat]

end Fields

/-- The first bytes of SCS: its tag is `100` (30_encoding.md R70, R76). -/
theorem scs_first_byte_range : ∀ b : Byte, classify b = .scs → 0x80 ≤ b.toNat ∧ b.toNat ≤ 0x9F := by decide

/-- The top bit of the extracted distance is the tag's third bit, which is 0 (30_encoding.md R76). -/
theorem scs_distance_le {b0 : Byte} (b1 : Byte) (h : classify b0 = .scs) :
    ((word16 b0 b1).extractLsb' 6 8).toNat ≤ 127 := by
  obtain ⟨hlo, hhi⟩ := scs_first_byte_range b0 h
  have hb1 := b1.isLt
  rw [BitVec.extractLsb'_toNat, word16_toNat, Nat.shiftRight_eq_div_pow]
  omega

/-- Settles O4: each format's fields are bit ranges of its word, and the word is the number the bytes form. -/
theorem fieldsAreMasksOfTheWord : Obligations.FieldsAreMasksOfTheWord := by
  intro b0 b1 b2 b3 r w2 w3 w4
  refine ⟨fun h => ?lit, fun h => ?tcs, fun h => ?tcl, fun h => ?scs, fun h => ?scl, fun h => ?sca⟩
  case lit => exact ⟨_, decode_lit b1 r h, word16_field b0 b1 0 8⟩
  case tcs => exact ⟨_, _, decode_tcs b1 b2 r h, word24_field b0 b1 b2 0 6, word24_field b0 b1 b2 6 16⟩
  case tcl => exact ⟨_, _, decode_tcl b1 b2 b3 r h, word32_field b0 b1 b2 b3 0 14, word32_field b0 b1 b2 b3 14 16⟩
  case scs => exact ⟨_, _, decode_scs b1 r h, word16_field b0 b1 0 6, word16_field b0 b1 6 8, scs_distance_le b1 h⟩
  case scl => exact ⟨_, _, decode_scl b1 b2 r h, word24_field b0 b1 b2 0 8, word24_field b0 b1 b2 8 13⟩
  case sca => exact ⟨_, _, decode_sca b1 b2 b3 r h, word32_field b0 b1 b2 b3 0 13, word32_field b0 b1 b2 b3 13 16⟩

end Sys2Proof

namespace Sys2Proof.Machine

open Sys2Proof

/-! ### Self copies -/

/-- A source in range in OUT, of at least one byte, begins below the write position (43_self_copy.md R130, R133). -/
theorem Source.index_lt_wp {src : Source} {wp n : Nat} (hsp : src.space = .out) (hr : src.inRange wp n = true)
    (hn : 0 < n) : src.index wp < wp := by
  cases src with
  | absoluteRef p => simp [Source.space] at hsp
  | backward d =>
    have hd : 1 ≤ d ∧ d ≤ wp := by simpa [Source.inRange] using hr
    show wp - d < wp
    omega
  | absoluteOut p =>
    have hp : p + n ≤ wp := by simpa [Source.inRange] using hr
    show p < wp
    omega

/-- A self copy with its source in range leaves every destination byte equal to the byte at its source index. -/
theorem runCopy_out_sees_stores {src : Source} {length size : Nat} {s : State} (hsp : src.space = .out)
    (hr : src.inRange s.wp.toNat (copyCount length s) = true) :
    ∃ t, runCopy src length size s = .next t ∧ ∀ i, i < copyCount length s →
      t.outByte (s.wp.toNat + i) = t.outByte (src.index s.wp.toNat + i) := by
  refine ⟨_, runCopy_done (.inr hr), fun i hi => ?_⟩
  have hlt := Source.index_lt_wp hsp hr (Nat.zero_lt_of_lt hi)
  simp only [State.outByte, commitCopy_out, hsp]
  exact copyBytes_out _ _ _ s hlt i hi

theorem backward_inRange {wp distance : Nat} (n : Nat) (h1 : 1 ≤ distance) (h2 : distance ≤ wp) :
    (Source.backward distance).inRange wp n = true := by
  simp [Source.inRange, h1, h2]

theorem absoluteOut_inRange {wp position n : Nat} (h : position + n ≤ wp) :
    (Source.absoluteOut position).inRange wp n = true := by
  simp [Source.inRange, h]

/-- Settles O14: each self copy is a run of the copy engine in OUT. -/
theorem selfCopyLoadsSeeEarlierStores : Obligations.SelfCopyLoadsSeeEarlierStores := by
  refine ⟨fun distance length s h1 h2 => ?scs, fun distance length s h1 h2 => ?scl, fun position length s h => ?sca⟩
  case scs => exact runCopy_out_sees_stores rfl (backward_inRange _ h1 h2)
  case scl => exact runCopy_out_sees_stores rfl (backward_inRange _ h1 h2)
  case sca => exact runCopy_out_sees_stores rfl (absoluteOut_inRange h)

end Sys2Proof.Machine
end

section
/-! PROOFS. The family 40_instruction_cycle.md: LIT's PUT (R103), the closed form of a backward copy (R108), and that a frame
is a function of BS, CURSOR and REF alone (R109). -/

namespace Sys2Proof.Machine

open Sys2Proof

/-! ### LIT -/

theorem execLit_inside (v : Byte) {s : State} (hw : s.wp.toNat < 64000) :
    exec (.lit v) s = .next (commit 1 2 (s.storeOut s.wp.toNat v)) := by
  simp [exec, execLit, putOp_inside hw]

@[simp] theorem outByte_commit (n size : Nat) (s : State) (a : Nat) : (commit n size s).outByte a = s.outByte a := by
  simp [State.outByte]

@[simp] theorem outByte_commitCopy (n length size : Nat) (s : State) (a : Nat) :
    (commitCopy n length size s).outByte a = s.outByte a := by
  simp [State.outByte]

/-- Settles O10: LIT inside the frame is one store and the commit. -/
theorem literalWritesOnePixel : Obligations.LiteralWritesOnePixel := by
  intro v s hw
  refine ⟨_, execLit_inside v hw, ?wp, ?cursor, ?clamped, ?out, (committed_lit v s hw).frame⟩
  case wp =>
    simp only [commit_wp, storeOut_wp, BitVec.toNat_ofNat]
    omega
  case cursor => exact BitVec.eq_of_toNat_eq (by simp)
  case clamped => simp
  case out => simp

/-! ### Backward copies -/

/-- The closed form of a copy from `distance` bytes back (40_instruction_cycle.md R108): byte `i` equals the byte `distance`
before it, so the pattern repeats with that period. -/
theorem copyBytes_backward {n distance dst : Nat} (s : State) (h1 : 1 ≤ distance) (h2 : distance ≤ dst) (i : Nat) :
    i < n → (copyBytes .out (dst - distance) dst n s).outByte (dst + i) =
      s.outByte (dst - distance + i % distance) := by
  induction i using Nat.strong_induction_on with
  | h i ih =>
    intro hi
    rw [copyBytes_out n _ dst s (by omega) i hi]
    by_cases hd : i < distance
    · rw [copyBytes_elsewhere _ _ _ _ _ _ (by omega), Nat.mod_eq_of_lt hd]
    · rw [show dst - distance + i = dst + (i - distance) by omega, ih _ (by omega) (by omega),
        ← Nat.mod_eq_sub_mod (by omega)]

theorem runCopy_backward_copied {distance length : Nat} (size : Nat) {s : State}
    (h : copyCount length s = 0 ∨ (1 ≤ distance ∧ distance ≤ s.wp.toNat)) :
    ∃ t, runCopy (.backward distance) length size s = .next t ∧
      Copied (fun i => s.outByte (s.wp.toNat - distance + i % distance)) length size s t := by
  refine runCopy_copied (h.imp_right fun ⟨h1, h2⟩ => backward_inRange _ h1 h2) fun i hi => ?_
  obtain ⟨h1, h2⟩ := h.resolve_left (Nat.ne_zero_of_lt hi)
  exact copyBytes_backward s h1 h2 i hi

theorem runCopy_backward_fault {distance length : Nat} (size : Nat) {s : State} (h0 : 0 < copyCount length s)
    (hd : distance = 0 ∨ s.wp.toNat < distance) :
    runCopy (.backward distance) length size s = .next (takeFault .backRange s) := by
  refine runCopy_fault (Nat.ne_of_gt h0) ?_
  simp only [Source.inRange, Bool.and_eq_false_iff, decide_eq_false_iff_not]
  omega

/-- Settles O12: both forms are one backward copy, of different operand widths. -/
theorem backwardCopiesRepeatThePattern : Obligations.BackwardCopiesRepeatThePattern :=
  ⟨fun _ _ _ => ⟨runCopy_backward_copied 2, runCopy_backward_fault 2⟩,
    fun _ _ _ => ⟨runCopy_backward_copied 3, runCopy_backward_fault 3⟩⟩

end Sys2Proof.Machine

namespace Sys2Proof

open Machine

/-! ### The fetch looks at no byte but the instruction's own -/

/-- As many bytes as the first one asks for are an instruction, with no rest. -/
theorem decode_of_size {b0 : Byte} {r : List Byte} (h : (classify b0).size = some (r.length + 1)) :
    ∃ i, decode (b0 :: r) = .ok (i, []) := by
  cases hk : classify b0 <;> rw [hk] at h <;> simp only [Kind.size, Option.some.injEq, reduceCtorEq] at h
  case lit =>
    obtain ⟨b1, rfl⟩ := List.length_eq_one_iff.1 (by omega : r.length = 1)
    exact ⟨_, decode_lit b1 [] hk⟩
  case tcs =>
    obtain ⟨b1, b2, rfl⟩ := List.length_eq_two.1 (by omega : r.length = 2)
    exact ⟨_, decode_tcs b1 b2 [] hk⟩
  case tcl =>
    obtain ⟨b1, b2, b3, rfl⟩ := List.length_eq_three.1 (by omega : r.length = 3)
    exact ⟨_, decode_tcl b1 b2 b3 [] hk⟩
  case scs =>
    obtain ⟨b1, rfl⟩ := List.length_eq_one_iff.1 (by omega : r.length = 1)
    exact ⟨_, decode_scs b1 [] hk⟩
  case scl =>
    obtain ⟨b1, b2, rfl⟩ := List.length_eq_two.1 (by omega : r.length = 2)
    exact ⟨_, decode_scl b1 b2 [] hk⟩
  case sca =>
    obtain ⟨b1, b2, b3, rfl⟩ := List.length_eq_three.1 (by omega : r.length = 3)
    exact ⟨_, decode_sca b1 b2 b3 [] hk⟩

theorem Kind.size_bounds {kind : Kind} {size : Nat} (h : kind.size = some size) : 2 ≤ size ∧ size ≤ 4 := by
  cases kind <;> simp only [Kind.size, Option.some.injEq, reduceCtorEq] at h <;> omega

end Sys2Proof

namespace Sys2Proof.Machine

open Sys2Proof

theorem Memory.bytes_congr {m m' : Memory} (n : Nat) : ∀ a, (∀ x, a ≤ x → x < a + n → m'.byte x = m.byte x) →
    m'.bytes a n = m.bytes a n := by
  induction n with
  | zero => intro a _; rfl
  | succ n ih =>
    intro a h
    rw [Memory.bytes, Memory.bytes, h a (by omega) (by omega), ih (a + 1) fun x h1 h2 => h x (by omega) (by omega)]

/-- A whole instruction before BS_LEN is fetched, and it is what its own bytes decode to (40_instruction_cycle.md R98). -/
theorem fetch_of_size {s : State} {size : Nat} (hs : (classify (s.bs.byte s.cursor.toNat)).size = some size)
    (hlen : s.cursor.toNat + size ≤ s.bsLen.toNat) :
    ∃ i, decode (s.bs.bytes s.cursor.toNat size) = .ok (i, []) ∧ fetch s = .ok i := by
  obtain ⟨hpos, hmax⟩ := Kind.size_bounds hs
  obtain ⟨n, rfl⟩ : ∃ n, size = n + 1 := ⟨size - 1, by omega⟩
  obtain ⟨i, hi⟩ := decode_of_size (r := s.bs.bytes (s.cursor.toNat + 1) n) (by simpa using hs)
  refine ⟨i, hi, ?_⟩
  obtain ⟨k, hk⟩ := Nat.exists_eq_add_of_le
    (Nat.le_min.2 ⟨hmax, by omega⟩ : n + 1 ≤ min Config.instrMax (s.bsLen.toNat - s.cursor.toNat))
  rw [fetch, fetchWindow, hk, Memory.bytes_add, Memory.bytes, decode_append hi]

theorem cursor_lt_of_fetch {s : State} {i : Instr} (h : fetch s = .ok i) : s.cursor.toNat < s.bsLen.toNat := by
  by_contra hge
  rw [fetch_none (Nat.le_of_not_lt hge)] at h
  cases h

/-- Two fetches of whole instructions at one CURSOR from memories that agree on the bytes of the first give the same
instruction, whatever BS_LEN. -/
theorem fetch_eq_of_bytes {s t : State} {i j : Instr} {size : Nat} (hs : fetch s = .ok i) (ht : fetch t = .ok j)
    (hi : i.kind.size = some size) (hcur : t.cursor = s.cursor)
    (hbytes : ∀ a, s.cursor.toNat ≤ a → a < s.cursor.toNat + size → t.bs.byte a = s.bs.byte a) : j = i := by
  have hfirst := hbytes s.cursor.toNat le_rfl (Nat.lt_add_of_pos_right (by have := Kind.size_bounds hi; omega))
  have hskind := fetch_kind (cursor_lt_of_fetch hs) hs
  have htkind := fetch_kind (cursor_lt_of_fetch ht) ht
  rw [hcur, hfirst, ← hskind] at htkind
  have hslen := fetch_ok hs
  have htlen := fetch_ok ht
  rw [hi, Option.getD_some] at hslen
  rw [htkind, hi, Option.getD_some] at htlen
  obtain ⟨i', hdi, hfi⟩ := fetch_of_size (hskind ▸ hi) hslen
  obtain ⟨j', hdj, hfj⟩ := fetch_of_size (s := t) (by rw [hcur, hfirst, ← hskind, hi]) htlen
  rw [hcur, Memory.bytes_congr _ _ hbytes, hdi] at hdj
  rw [hs] at hfi
  rw [ht] at hfj
  cases hfi; cases hfj; cases hdj
  rfl

/-! ### One instruction on two states with the same picture so far -/

/-- Two states of a DECODE stand at the same CURSOR, WP and CLAMPED, with the same REF and the same part of OUT built so far
(40_instruction_cycle.md R109): all that an instruction's meaning reads. -/
structure SamePicture (s t : State) : Prop where
  cursor : t.cursor = s.cursor
  wp : t.wp = s.wp
  clamped : t.clamped = s.clamped
  refBytes : ∀ a, a < 64000 → t.refByte a = s.refByte a
  outBytes : ∀ a, a < s.wp.toNat → t.outByte a = s.outByte a

/-- What one meaning does to two states: both commit, and the pictures are the same again, or both enter the same fault. -/
inductive SameOutcome (s t : State) (r r' : Result) : Prop
  | commits {u v : State} (hs : r = .next u) (ht : r' = .next v) (hu : InstrFrame s u) (hv : InstrFrame t v)
      (same : SamePicture u v)
  | faults (c : FaultCode) (hs : r = .next (takeFault c s)) (ht : r' = .next (takeFault c t))

theorem Committed.refByte {size : Nat} {s t : State} (h : Committed size s t) (a : Nat) : t.refByte a = s.refByte a := by
  simp only [State.refByte, h.ref]

/-- The loop of COPY from a source that lies in REF, or begins below the destination in OUT, builds the same bytes up to its
last one in both states. -/
theorem copyBytes_same {s t : State} {sp : Space} {src dst n : Nat} (href : sp = .ref → ∀ i, i < n →
      t.refByte (src + i) = s.refByte (src + i)) (hsrc : sp = .out → 0 < n → src < dst)
    (hout : ∀ a, a < dst → t.outByte a = s.outByte a) (a : Nat) :
    a < dst + n → (copyBytes sp src dst n t).outByte a = (copyBytes sp src dst n s).outByte a := by
  induction a using Nat.strong_induction_on with
  | h a ih =>
    intro ha
    by_cases hd : a < dst
    · rw [copyBytes_elsewhere _ _ _ _ _ _ (.inl hd), copyBytes_elsewhere _ _ _ _ _ _ (.inl hd), hout a hd]
    · obtain ⟨i, rfl⟩ := Nat.exists_eq_add_of_le (Nat.le_of_not_lt hd)
      have hi : i < n := by omega
      cases sp with
      | ref => rw [copyBytes_ref _ _ _ _ _ hi, copyBytes_ref _ _ _ _ _ hi, href rfl i hi]
      | out =>
        have hlt := hsrc rfl (Nat.zero_lt_of_lt hi)
        rw [copyBytes_out _ _ _ _ hlt _ hi, copyBytes_out _ _ _ _ hlt _ hi, ih _ (by omega) (by omega)]

/-- The state a copy that commits leaves (40_instruction_cycle.md R106). -/
def copyDone (src : Source) (length size : Nat) (s : State) : State :=
  commitCopy (clampCount length s.wp.toNat) length size
    (copyBytes src.space (src.index s.wp.toNat) s.wp.toNat (clampCount length s.wp.toNat) s)

theorem runCopy_eq_copyDone {src : Source} {length : Nat} (size : Nat) {s : State}
    (hc : clampCount length s.wp.toNat = 0 ∨ src.inRange s.wp.toNat (clampCount length s.wp.toNat) = true) :
    runCopy src length size s = .next (copyDone src length size s) := runCopy_done hc

theorem copyDone_frame (src : Source) (length size : Nat) (s : State) : InstrFrame s (copyDone src length size s) :=
  (committed_copy ..).frame

/-- A copy whose source is in range, or with nothing left to write, keeps the two pictures the same. -/
theorem SamePicture.copyDone {s t : State} (h : SamePicture s t) {src : Source} {length : Nat} (size : Nat)
    (hc : clampCount length s.wp.toNat = 0 ∨ src.inRange s.wp.toNat (clampCount length s.wp.toNat) = true) :
    SamePicture (copyDone src length size s) (copyDone src length size t) := by
  rw [Machine.copyDone, Machine.copyDone, h.wp]
  obtain ⟨hsref, _, hscur, hswp, _, _, _, _, hscl, _⟩ :=
    copyBytes_frame src.space (clampCount length s.wp.toNat) (src.index s.wp.toNat) s.wp.toNat s
  obtain ⟨htref, _, htcur, htwp, _, _, _, _, htcl, _⟩ :=
    copyBytes_frame src.space (clampCount length s.wp.toNat) (src.index s.wp.toNat) s.wp.toNat t
  refine ⟨by simp [hscur, htcur, h.cursor], by simp [hswp, htwp, h.wp], by simp [hscl, htcl, h.clamped], ?_, ?_⟩
  · intro a ha
    simpa [State.refByte, hsref, htref] using h.refBytes a ha
  · intro a ha
    rw [outByte_commitCopy, outByte_commitCopy]
    refine copyBytes_same (fun _ i hi => h.refBytes _ ?_) (fun hsp hn => ?_) h.outBytes a ?_
    · have h0 := Nat.ne_zero_of_lt hi
      have := Source.index_bound (hc.resolve_left h0) ((clampCount_bound _ _).resolve_left h0)
      omega
    · exact Source.index_lt_wp hsp (hc.resolve_left (Nat.ne_of_gt hn)) hn
    · rw [commitCopy_wp, hswp, BitVec.toNat_ofNat] at ha
      exact Nat.lt_of_lt_of_le ha (Nat.mod_le _ _)

theorem SamePicture.runCopy {s t : State} (h : SamePicture s t) (src : Source) (length size : Nat) :
    SameOutcome s t (runCopy src length size s) (runCopy src length size t) := by
  by_cases hc : clampCount length s.wp.toNat = 0 ∨ src.inRange s.wp.toNat (clampCount length s.wp.toNat) = true
  · exact .commits (runCopy_eq_copyDone size hc) (runCopy_eq_copyDone size (by rw [h.wp]; exact hc))
      (copyDone_frame ..) (copyDone_frame ..) (h.copyDone size hc)
  · obtain ⟨h0, hr⟩ := not_or.1 hc
    rw [Bool.not_eq_true] at hr
    exact .faults src.faultCode (runCopy_fault h0 hr) (runCopy_fault (by rw [h.wp]; exact h0) (by rw [h.wp]; exact hr))

theorem SamePicture.lit {s t : State} (h : SamePicture s t) (v : Byte) (hw : s.wp.toNat < 64000) :
    SameOutcome s t (exec (.lit v) s) (exec (.lit v) t) := by
  have hwt : t.wp.toNat < 64000 := by rw [h.wp]; exact hw
  have hs := committed_lit v s hw
  have ht := committed_lit v t hwt
  refine .commits (execLit_inside v hw) (execLit_inside v hwt) hs.frame ht.frame
    ⟨by simp [h.cursor], by simp [h.wp], by simp [h.clamped], fun a ha => ?_, fun a ha => ?_⟩
  · rw [hs.refByte, ht.refByte, h.refBytes a ha]
  · simp only [commit_wp, storeOut_wp, BitVec.toNat_ofNat] at ha
    simp only [outByte_commit, outByte_storeOut, h.wp]
    by_cases he : a = s.wp.toNat
    · rw [if_pos he, if_pos he]
    · rw [if_neg he, if_neg he, h.outBytes a (by omega)]

/-- Every instruction's meaning is a function of the picture. -/
theorem SamePicture.exec {s t : State} (h : SamePicture s t) (i : Instr) (hw : s.wp.toNat < 64000) :
    SameOutcome s t (exec i s) (exec i t) := by
  cases i with
  | lit v => exact h.lit v hw
  | tcs position length => exact h.runCopy (.absoluteRef position.toNat) length.toNat 3
  | tcl position length => exact h.runCopy (.absoluteRef position.toNat) length.toNat 4
  | scs distance length => exact h.runCopy (.backward distance.toNat) length.toNat 2
  | scl distance length => exact h.runCopy (.backward distance.toNat) length.toNat 3
  | sca position length => exact h.runCopy (.absoluteOut position.toNat) length.toNat 4
  | reserved b0 => exact .faults .reserved rfl rfl

/-! ### The steps of a DECODE -/

theorem instrStep_fetched {s : State} {i : Instr} (h : fetch s = .ok i) : instrStep s = exec i s := by
  simp [instrStep, h]

theorem instrStep_unfetched {s : State} {c : FaultCode} (h : fetch s = .error c) :
    instrStep s = .next (takeFault c s) := by
  simp [instrStep, h]

theorem completeFrame_leaves (s : State) : (completeFrame s).st ≠ .busy ∧ (completeFrame s).st ≠ .fault := by
  obtain ⟨_, e⟩ | ⟨_, e⟩ := completeFrame_cases s <;> simp [e]

/-- A run that is still decoding or has faulted began, if in BUSY, with an instruction step: frame completion leaves both. -/
theorem runSteps_begins_with_instrStep {k : Nat} {s s' : State} (ht : s.turns = []) (hst : s.st = .busy)
    (hrun : runSteps (k + 1) s = .next s') (hend : s'.st = .busy ∨ s'.st = .fault) :
    s.wp.toNat < 64000 ∧ ∃ u, instrStep s = .next u ∧ u.turns = [] ∧ runSteps k u = .next s' := by
  obtain ⟨u, hu, hrest⟩ := runSteps_succ_next hrun
  rw [step_no_turns ht] at hu
  have htu := fbdMove_turns ht hu
  rw [fbdMove_busy hst] at hu
  split_ifs at hu with hlt heq
  · exact ⟨hlt, u, hu, htu, hrest⟩
  · cases hu
    obtain ⟨hbusy, hfault⟩ := completeFrame_leaves s
    rw [runSteps_waits htu hbusy] at hrest
    cases hrest
    exact absurd hend (not_or.2 ⟨hbusy, hfault⟩)

/-- A run that ends in BUSY was in BUSY at its start: no other state is left without the host (60_exceptions.md R186). -/
theorem busy_of_runSteps {k : Nat} {s s' : State} (ht : s.turns = []) (hrun : runSteps k s = .next s')
    (hend : s'.st = .busy) : s.st = .busy := by
  by_contra hst
  rw [runSteps_waits ht hst] at hrun
  cases hrun
  exact hst hend

/-- An instruction step that stays in BUSY committed a whole instruction, and CURSOR moved on by its size. -/
theorem instrStep_commits {s u : State} (hw : s.wp.toNat < 64000) (hu : instrStep s = .next u) (hst : u.st = .busy) :
    ∃ i size, fetch s = .ok i ∧ i.kind.size = some size ∧ u.cursor.toNat = s.cursor.toNat + size := by
  obtain ⟨x, hx, hcases⟩ := instrStep_cases s hw
  obtain rfl : x = u := by rw [hx] at hu; cases hu; rfl
  obtain ⟨i, size, hf, hs, hb, hc⟩ | ⟨_, _, _, rfl⟩ := hcases
  · have := s.bsLen.isLt
    refine ⟨i, size, hf, hs, ?_⟩
    rw [hc.cursor, BitVec.toNat_ofNat, Nat.mod_eq_of_lt (by omega)]
  · cases hst

/-- A run of at least one step that ends in BUSY takes an instruction step that stays in BUSY, and goes on from there. -/
theorem runSteps_stays_busy {k : Nat} {s s' : State} (ht : s.turns = []) (hrun : runSteps (k + 1) s = .next s')
    (hend : s'.st = .busy) : s.wp.toNat < 64000 ∧
      ∃ u, instrStep s = .next u ∧ u.turns = [] ∧ u.st = .busy ∧ runSteps k u = .next s' := by
  obtain ⟨hw, u, hu, htu, hrest⟩ :=
    runSteps_begins_with_instrStep ht (busy_of_runSteps ht hrun hend) hrun (.inl hend)
  exact ⟨hw, u, hu, htu, busy_of_runSteps htu hrest hend, hrest⟩

/-- CURSOR only moves on inside a DECODE (10_state.md R13). -/
theorem cursor_le_of_runSteps {k : Nat} : ∀ {s s' : State}, s.turns = [] → runSteps k s = .next s' → s'.st = .busy →
    s.cursor.toNat ≤ s'.cursor.toNat := by
  induction k with
  | zero => intro s s' _ hrun _; cases hrun; exact le_rfl
  | succ k ih =>
    intro s s' ht hrun hend
    obtain ⟨hw, u, hu, htu, hub, hrest⟩ := runSteps_stays_busy ht hrun hend
    obtain ⟨_, _, _, _, hcur⟩ := instrStep_commits hw hu hub
    have := ih htu hrest hend
    omega

/-! ### Two decodes of one picture: only the bytes consumed matter (R109) -/

/-- One step that commits on both sides, with the bytes of the first's instruction equal, keeps the picture. -/
theorem SamePicture.instrStep {s t u v : State} (h : SamePicture s t) (hw : s.wp.toNat < 64000)
    (hu : instrStep s = .next u) (hv : instrStep t = .next v) (hub : u.st = .busy) (hvb : v.st = .busy)
    (hbytes : ∀ a, s.cursor.toNat ≤ a → a < u.cursor.toNat → t.bs.byte a = s.bs.byte a) :
    SamePicture u v ∧ u.bs = s.bs ∧ v.bs = t.bs := by
  obtain ⟨i, size, hsf, hsize, hcur⟩ := instrStep_commits hw hu hub
  obtain ⟨j, _, htf, _, _⟩ := instrStep_commits (by rw [h.wp]; exact hw) hv hvb
  obtain rfl : j = i := fetch_eq_of_bytes hsf htf hsize h.cursor fun a h1 h2 => hbytes a h1 (by rw [hcur]; exact h2)
  rw [instrStep_fetched hsf] at hu
  rw [instrStep_fetched htf] at hv
  cases h.exec j hw with
  | commits hs ht hsu htv same =>
    rw [hs] at hu
    rw [ht] at hv
    cases hu; cases hv
    exact ⟨same, hsu.bs, htv.bs⟩
  | faults c hs ht =>
    rw [hs] at hu
    cases hu
    cases hub

/-- Two decodes of one picture that both complete, with BS equal on the bytes the first consumes, end at one picture. -/
theorem SamePicture.runSteps (j : Nat) : ∀ (k : Nat) (s t s' t' : State), SamePicture s t → s.turns = [] → t.turns = [] →
    runSteps j s = .next s' → s'.st = .busy → s'.wp.toNat = 64000 →
    runSteps k t = .next t' → t'.st = .busy → t'.wp.toNat = 64000 →
    (∀ a, s.cursor.toNat ≤ a → a < s'.cursor.toNat → t.bs.byte a = s.bs.byte a) → SamePicture s' t' := by
  induction j with
  | zero =>
    intro k s t s' t' h _ ht hrun _ hwp hrun' hend' _ _
    cases hrun
    cases k with
    | zero => cases hrun'; exact h
    | succ k =>
      have hw := (runSteps_stays_busy ht hrun' hend').1
      rw [h.wp] at hw
      omega
  | succ j ih =>
    intro k s t s' t' h hs ht hrun hend hwp hrun' hend' hwp' hbytes
    obtain ⟨hw, u, hu, hsu, hub, hrest⟩ := runSteps_stays_busy hs hrun hend
    cases k with
    | zero =>
      cases hrun'
      rw [h.wp] at hwp'
      omega
    | succ k =>
      obtain ⟨_, v, hv, htv, hvb, hrest'⟩ := runSteps_stays_busy ht hrun' hend'
      obtain ⟨_, _, _, _, hcur⟩ := instrStep_commits hw hu hub
      have hle := cursor_le_of_runSteps hsu hrest hend
      obtain ⟨hsame, hubs, hvbs⟩ := h.instrStep hw hu hv hub hvb fun a h1 h2 => hbytes a h1 (by omega)
      refine ih k u v s' t' hsame hsu htv hrest hend hwp hrest' hend' hwp' fun a h1 h2 => ?_
      rw [hubs, hvbs]
      exact hbytes a (by omega) h2

end Sys2Proof.Machine

namespace Sys2Proof

open Machine

/-! ### Agreement on the inputs is kept by every step (R109) -/

theorem SameFrameInputs.picture {s t : State} (h : SameFrameInputs s t) : SamePicture s t :=
  ⟨h.cursor, h.wp, h.clamped, h.refBytes, h.outBytes⟩

theorem SameFrameInputs.fetch {s t : State} (h : SameFrameInputs s t) : fetch t = fetch s := by
  have hwindow : fetchWindow t = fetchWindow s := by
    rw [fetchWindow, fetchWindow, h.cursor, h.bsLen]
    exact Memory.bytes_congr _ _ fun a _ ha => h.bsBytes a (by omega)
  rw [Machine.fetch, Machine.fetch, hwindow]

theorem SameFrameInputs.takeFault {s t : State} (h : SameFrameInputs s t) (c : FaultCode) :
    SameFrameInputs (takeFault c s) (takeFault c t) where
  bsBytes := h.bsBytes
  bsLen := h.bsLen
  cursor := h.cursor
  wp := h.wp
  st := rfl
  clamped := h.clamped
  faultCode := rfl
  refBytes a ha := by simpa [State.refByte] using h.refBytes a ha
  outBytes a ha := by simpa [State.outByte] using h.outBytes a ha

theorem SameFrameInputs.commit {s t u v : State} (h : SameFrameInputs s t) (hu : InstrFrame s u) (hv : InstrFrame t v)
    (same : SamePicture u v) : SameFrameInputs u v where
  bsBytes a ha := by rw [hv.bs, hu.bs]; exact h.bsBytes a (by rwa [hu.bsLen] at ha)
  bsLen := by rw [hv.bsLen, hu.bsLen, h.bsLen]
  cursor := same.cursor
  wp := same.wp
  st := by rw [hv.st, hu.st, h.st]
  clamped := same.clamped
  faultCode := by rw [hv.faultCode, hu.faultCode, h.faultCode]
  refBytes := same.refBytes
  outBytes := same.outBytes

theorem SameFrameInputs.instrStep {s t u : State} (h : SameFrameInputs s t) (hw : s.wp.toNat < 64000)
    (hu : instrStep s = .next u) : ∃ v, instrStep t = .next v ∧ SameFrameInputs u v := by
  cases hf : Machine.fetch s with
  | error c =>
    rw [instrStep_unfetched hf] at hu
    cases hu
    exact ⟨_, instrStep_unfetched (h.fetch.trans hf), h.takeFault c⟩
  | ok i =>
    rw [instrStep_fetched hf] at hu
    rw [instrStep_fetched (h.fetch.trans hf)]
    cases h.picture.exec i hw with
    | commits hs ht hsu htv same =>
      rw [hs] at hu
      cases hu
      exact ⟨_, ht, h.commit hsu htv same⟩
    | faults c hs ht =>
      rw [hs] at hu
      cases hu
      exact ⟨_, ht, h.takeFault c⟩

theorem SameFrameInputs.runSteps (k : Nat) : ∀ s t s' : State, SameFrameInputs s t → s.turns = [] → t.turns = [] →
    runSteps k s = .next s' → s'.st = .busy ∨ s'.st = .fault →
    ∃ t', runSteps k t = .next t' ∧ SameFrameInputs s' t' := by
  induction k with
  | zero =>
    intro s t s' h _ _ hrun _
    cases hrun
    exact ⟨t, rfl, h⟩
  | succ k ih =>
    intro s t s' h hs ht hrun hend
    by_cases hst : s.st = .busy
    · obtain ⟨hw, u, hu, hsu, hrest⟩ := runSteps_begins_with_instrStep hs hst hrun hend
      obtain ⟨v, hv, hsame⟩ := h.instrStep hw hu
      have hstep : step t = .next v := by
        rw [step_no_turns ht, fbdMove_busy (h.st.trans hst), h.wp, if_pos hw, hv]
      have htv : v.turns = [] := fbdMove_turns ht (by rw [← step_no_turns ht, hstep])
      rw [runSteps_succ hstep]
      exact ih u v s' hsame hsu htv hrest hend
    · rw [runSteps_waits hs hst] at hrun
      cases hrun
      exact ⟨t, runSteps_waits ht (by rw [h.st]; exact hst), h⟩

/-- Settles O24: every step keeps agreement on the inputs; with BS equal on the bytes consumed alone it keeps the picture. -/
theorem frameDependsOnlyOnItsInputs : Obligations.FrameDependsOnlyOnItsInputs := by
  refine ⟨SameFrameInputs.runSteps, ?_⟩
  intro j k s t s' t' hs ht _ _ hcur hwp hcl href hout hrun hend hdone hrun' hend' hdone' hbytes
  have h := SamePicture.runSteps j k s t s' t' ⟨hcur, hwp, hcl, href, hout⟩ hs ht hrun hend hdone hrun' hend' hdone'
    hbytes
  exact ⟨fun a ha => h.outBytes a (by omega), h.cursor, h.clamped⟩

end Sys2Proof
end

section
/-! PROOFS. The family 42_temporal_copy.md: what a temporal copy writes (R120) and when it faults (R174). -/

namespace Sys2Proof.Machine

open Sys2Proof

/-! ### Temporal copies -/

theorem absoluteRef_inRange_iff {wp position n : Nat} :
    (Source.absoluteRef position).inRange wp n = true ↔ position + n ≤ 64000 := by
  simp [Source.inRange]

/-- COPY stores to OUT and loads from REF, so no load sees a store: the bytes written are those of REF before. -/
theorem runCopy_absoluteRef_copied {position length : Nat} (size : Nat) {s : State}
    (h : copyCount length s = 0 ∨ position + copyCount length s ≤ 64000) :
    ∃ t, runCopy (.absoluteRef position) length size s = .next t ∧
      Copied (fun i => s.refByte (position + i)) length size s t :=
  runCopy_copied (h.imp_right absoluteRef_inRange_iff.2) fun i hi => copyBytes_ref _ position s.wp.toNat s i hi

theorem runCopy_absoluteRef_fault {position length : Nat} (size : Nat) {s : State} (h0 : 0 < copyCount length s)
    (hp : 64000 < position + copyCount length s) :
    runCopy (.absoluteRef position) length size s = .next (takeFault .refRange s) :=
  runCopy_fault (Nat.ne_of_gt h0) (Bool.eq_false_iff.2 (absoluteRef_inRange_iff.not.2 (Nat.not_le_of_lt hp)))

/-- Settles O11: both forms are one copy from an absolute position in REF, of different operand widths and sizes. -/
theorem temporalCopiesFollowTheirRule : Obligations.TemporalCopiesFollowTheirRule :=
  ⟨fun _ _ _ => ⟨runCopy_absoluteRef_copied 3, runCopy_absoluteRef_fault 3⟩,
    fun _ _ _ => ⟨runCopy_absoluteRef_copied 4, runCopy_absoluteRef_fault 4⟩⟩

end Sys2Proof.Machine
end

section
/-! PROOFS. The family 44_host_commands.md: which CMD writes the table accepts (R150), and what frame completion writes
(R148). -/

namespace Sys2Proof.Machine

/-! ### The table of commands -/

/-- The pairs of state and CMD value that the table accepts (44_host_commands.md R150). -/
def CmdAccepted (st : St) (value : Word) : Prop :=
  (st = .idle ∧ value = 1#32) ∨ (st = .ready ∧ (value = 2#32 ∨ value = 3#32)) ∨ (st = .fault ∧ value = 3#32)

theorem step_writeCmd {s : State} {value : Word} {turns : List HostTurn}
    (ht : s.turns = .act (.writeReg 0 value) :: turns) : step s = .next (writeCmd value { s with turns := turns }) := by
  rw [step_act ht]; rfl

theorem writeCmd_start {s : State} (h : s.st = .idle) : writeCmd 1#32 s = cmdStart s := by
  simp [writeCmd, h]

theorem writeCmd_decode {s : State} (h : s.st = .ready) : writeCmd 2#32 s = cmdDecode s := by
  simp [writeCmd, h]

theorem writeCmd_stop {s : State} (h : s.st = .ready ∨ s.st = .fault) : writeCmd 3#32 s = cmdStop s := by
  obtain h | h := h <;> simp [writeCmd, h]

theorem writeCmd_dropped {s : State} {value : Word} (h : ¬CmdAccepted s.st value) : writeCmd value s = s := by
  obtain ⟨hst, hv, _⟩ | ⟨hst, hv, _⟩ | ⟨hst | hst, hv, _⟩ | he := writeCmd_cases value s
  · exact absurd (.inl ⟨hst, hv⟩) h
  · exact absurd (.inr (.inl ⟨hst, .inl hv⟩)) h
  · exact absurd (.inr (.inl ⟨hst, .inr hv⟩)) h
  · exact absurd (.inr (.inr ⟨hst, hv⟩)) h
  · exact he

/-- START leaves IDLE, whether it opens a session or is refused. -/
theorem cmdStart_st_ne_idle (s : State) : (cmdStart s).st ≠ .idle := by
  by_cases h : s.frameCount.toNat < 2
  · simp [cmdStart_refuses h]
  · simp [cmdStart_opens (Nat.not_lt.1 h)]

/-- Each accepted command moves the block to another state, so no accepted write can look like a dropped one. -/
theorem writeCmd_accepted_st_ne {s : State} {value : Word} (h : CmdAccepted s.st value) :
    (writeCmd value s).st ≠ s.st := by
  obtain ⟨hst, rfl⟩ | ⟨hst, rfl | rfl⟩ | ⟨hst, rfl⟩ := h
  · rw [writeCmd_start hst, hst]
    exact cmdStart_st_ne_idle s
  · simp [writeCmd_decode hst, cmdDecode, hst]
  · simp [writeCmd_stop (.inl hst), cmdStop, hst]
  · simp [writeCmd_stop (.inr hst), cmdStop, hst]

theorem writeCmd_eq_self_iff {s : State} {value : Word} : writeCmd value s = s ↔ ¬CmdAccepted s.st value :=
  ⟨fun he h => writeCmd_accepted_st_ne h (congrArg State.st he), writeCmd_dropped⟩

/-- Settles O35: a CMD write leaves the state it finds exactly when the table does not accept it. -/
theorem otherCommandsAreDropped : Obligations.OtherCommandsAreDropped :=
  fun _ _ _ ht => ⟨_, step_writeCmd ht, writeCmd_eq_self_iff⟩

/-! ### Frame completion -/

theorem step_completes {s : State} (ht : s.turns = []) (hst : s.st = .busy) (hwp : s.wp.toNat = 64000) :
    step s = .next (completeFrame s) := by
  simp [step_no_turns ht, fbdMove_busy hst, hwp]

/-- Settles O23: the end-of-movie test decides between the two outcomes of frame completion. -/
theorem frameCompletionSwapsRoles : Obligations.FrameCompletionSwapsRoles := by
  intro s ht hst hwp hidx
  have hlast := (lastFrame_succ hidx).2
  rw [step_completes ht hst hwp]
  obtain ⟨hl, he⟩ | ⟨hl, he⟩ := completeFrame_cases s <;> rw [hl] at hlast <;> rw [he]
  · have hend := of_decide_eq_true hlast.symm
    exact ⟨fun _ => rfl, fun hne => absurd hend hne⟩
  · have hgoes := of_decide_eq_false hlast.symm
    exact ⟨fun heq => absurd heq hgoes, fun _ => rfl⟩

end Sys2Proof.Machine
end

section
/-! PROOFS. The family 60_exceptions.md: when F_UNDERRUN (R172), F_RESERVED (R173) and F_ABS_RANGE (R176) are raised, and that
every instruction fault is precise (R179). -/

namespace Sys2Proof.Machine

open Sys2Proof

/-! ### The absolute self copy -/

/-- A source range that ends at or below the destination is not written by the copy: the bytes are those of OUT before. -/
theorem copyBytes_out_below {n src dst : Nat} (s : State) (h : src + n ≤ dst) (i : Nat) (hi : i < n) :
    (copyBytes .out src dst n s).outByte (dst + i) = s.outByte (src + i) := by
  rw [copyBytes_out n src dst s (by omega) i hi, copyBytes_elsewhere _ _ _ _ _ _ (.inl (by omega))]

theorem runCopy_absoluteOut_copied {position length : Nat} (size : Nat) {s : State}
    (h : copyCount length s = 0 ∨ position + copyCount length s ≤ s.wp.toNat) :
    ∃ t, runCopy (.absoluteOut position) length size s = .next t ∧
      Copied (fun i => s.outByte (position + i)) length size s t :=
  runCopy_copied (h.imp_right absoluteOut_inRange) fun i hi =>
    copyBytes_out_below s (h.resolve_left (Nat.ne_zero_of_lt hi)) i hi

theorem runCopy_absoluteOut_fault {position length : Nat} (size : Nat) {s : State} (h0 : 0 < copyCount length s)
    (hp : s.wp.toNat < position + copyCount length s) :
    runCopy (.absoluteOut position) length size s = .next (takeFault .absRange s) :=
  runCopy_fault (Nat.ne_of_gt h0) (decide_eq_false (Nat.not_le_of_lt hp))

/-- Settles O13: SCA is one copy from an absolute position in OUT. -/
theorem absoluteSelfCopyFollowsItsRule : Obligations.AbsoluteSelfCopyFollowsItsRule :=
  fun _ _ _ => ⟨runCopy_absoluteOut_copied 4, runCopy_absoluteOut_fault 4⟩

/-! ### The faults of an instruction step -/

/-- In a DECODE with the frame incomplete, a step with no host turn pending is an instruction step
(40_instruction_cycle.md R95). -/
theorem step_instrStep {s : State} (ht : s.turns = []) (hst : s.st = .busy) (hw : s.wp.toNat < 64000) :
    step s = instrStep s := by
  rw [step_no_turns ht, fbdMove_busy hst, if_pos hw]

/-- Settles O17: an instruction step commits, which leaves ST in BUSY, or enters a fault. -/
theorem instructionFaultsArePrecise : Obligations.InstructionFaultsArePrecise := by
  intro s t ht hst hw hs hfault
  rw [step_instrStep ht hst hw] at hs
  obtain ⟨u, hu, hcases⟩ := instrStep_cases s hw
  obtain rfl : u = t := Host.Outcome.next.inj (hu.symm.trans hs)
  obtain ⟨_, _, _, _, _, hc⟩ | ⟨c, hnone, hconfig, rfl⟩ := hcases
  · have hbusy : u.st = .busy := hc.frame.st.trans hst
    rw [hbusy] at hfault
    cases hfault
  · exact ⟨rfl, hnone, hconfig⟩

/-- Settles O7: in both cases the fetch fails, and the step enters its fault. -/
theorem underrunWhenBytesAreMissing : Obligations.UnderrunWhenBytesAreMissing := by
  intro s ht hst hw
  rw [step_instrStep ht hst hw]
  refine ⟨fun hge => ?noFirstByte, fun size hlt hsize hmissing => ?laterByteMissing⟩
  case noFirstByte => exact instrStep_unfetched (fetch_none hge)
  case laterByteMissing => exact instrStep_unfetched (fetch_truncated hlt hsize hmissing)

theorem exec_reserved (b0 : BitVec 8) (s : State) : exec (.reserved b0) s = .next (takeFault .reserved s) := rfl

/-- Settles O8: the fetch of a reserved first byte answers the reserved row, whose meaning is the fault entry. -/
theorem reservedFirstByteFaults : Obligations.ReservedFirstByteFaults := by
  refine ⟨exec_reserved, fun s ht hst hw hlt hlo hhi => ?_⟩
  rw [step_instrStep ht hst hw, instrStep_fetched (fetch_reserved hlt (classify_reserved _ hlo hhi))]
  exact exec_reserved _ s

end Sys2Proof.Machine
end

section
/-! PROOFS. The encoding: the decoder and the encoder undo each other on all seven formats, and the first byte decides kind
and size (30_encoding.md R70 to R84); a step runs the instruction that the bytes at CURSOR encode (40_instruction_cycle.md
R96 to R99). -/

namespace Sys2Proof

/-! ### Three fields side by side -/

section ThreeFields
variable {a b c : Nat}

theorem middle_field (t : BitVec a) (p : BitVec b) (l : BitVec c) : (t ++ p ++ l).extractLsb' c b = p := by
  rw [BitVec.extractLsb'_append_eq_of_le le_rfl, Nat.sub_self, BitVec.extractLsb'_append_eq_right]

/-- A word is its three fields side by side. -/
theorem append_fields {t : BitVec a} {w : BitVec (a + b + c)} (h : w.extractLsb' (c + b) a = t) :
    t ++ w.extractLsb' c b ++ w.extractLsb' 0 c = w := by
  rw [← h, BitVec.extractLsb'_append_extractLsb'_eq_extractLsb' rfl,
    BitVec.extractLsb'_append_extractLsb'_eq_extractLsb' (Nat.zero_add c).symm, BitVec.extractLsb'_eq_self]

end ThreeFields

/-! ### Decoding an encoding -/

/-- What is assembled from a tag and operands has those operands as its fields (30_encoding.md R73 to R78, R84). -/
theorem fieldsTcs_append (t : BitVec 2) (position : BitVec 16) (length : BitVec 6) :
    fieldsTcs (t ++ position ++ length) = .tcs position length :=
  congrArg₂ Instr.tcs (middle_field ..) BitVec.extractLsb'_append_eq_right

theorem fieldsTcl_append (t : BitVec 2) (position : BitVec 16) (length : BitVec 14) :
    fieldsTcl (t ++ position ++ length) = .tcl position length :=
  congrArg₂ Instr.tcl (middle_field ..) BitVec.extractLsb'_append_eq_right

theorem fieldsScs_append (t : BitVec 2) (distance : BitVec 8) (length : BitVec 6) :
    fieldsScs (t ++ distance ++ length) = .scs distance length :=
  congrArg₂ Instr.scs (middle_field ..) BitVec.extractLsb'_append_eq_right

theorem fieldsScl_append (t : BitVec 3) (distance : BitVec 13) (length : BitVec 8) :
    fieldsScl (t ++ distance ++ length) = .scl distance length :=
  congrArg₂ Instr.scl (middle_field ..) BitVec.extractLsb'_append_eq_right

theorem fieldsSca_append (t : BitVec 3) (position : BitVec 16) (length : BitVec 13) :
    fieldsSca (t ++ position ++ length) = .sca position length :=
  congrArg₂ Instr.sca (middle_field ..) BitVec.extractLsb'_append_eq_right

theorem decode_reserved {b0 : Byte} (r : List Byte) (h : classify b0 = .reserved) :
    decode (b0 :: r) = .ok (.reserved b0, r) := by
  simp [decode, h]

/-- Settles O1: the first byte's tag selects the format, whose fields the word's assembly gives back. -/
theorem decodeOfEncodeIsIdentity : Obligations.DecodeOfEncodeIsIdentity := by
  intro i rest hwf
  cases i with
  | lit v =>
    refine (decode_lit _ rest (by rw [tag_lit]; rfl)).trans ?_
    rw [word16_bytes, fieldsLit, BitVec.extractLsb'_append_eq_right]
  | tcs position length =>
    refine (decode_tcs _ _ rest ((classify_top2 _).1 (tag_tcs ..))).trans ?_
    rw [word24_bytes, fieldsTcs_append]
  | tcl position length =>
    refine (decode_tcl _ _ _ rest ((classify_top2 _).2 (tag_tcl ..))).trans ?_
    rw [word32_bytes, fieldsTcl_append]
  | scs distance length =>
    refine (decode_scs _ rest ((classify_top3 _).1 (tag_scs _ _ _ (of_decide_eq_true hwf)))).trans ?_
    rw [word16_bytes, fieldsScs_append]
  | scl distance length =>
    refine (decode_scl _ _ rest ((classify_top3 _).2.1 (tag_scl ..))).trans ?_
    rw [word24_bytes, fieldsScl_append]
  | sca position length =>
    refine (decode_sca _ _ _ rest ((classify_top3 _).2.2 (tag_sca ..))).trans ?_
    rw [word32_bytes, fieldsSca_append]
  | reserved b0 =>
    obtain ⟨hlo, hhi⟩ : 0xE0 ≤ b0.toNat ∧ b0.toNat ≤ 0xFE := by simpa [Instr.wf] using hwf
    exact decode_reserved rest (classify_reserved b0 hlo hhi)

/-! ### Encoding what was decoded -/

section TopBits
variable (b0 b1 b2 b3 : Byte) (start len : Nat)

/-- The bits of a word above its later bytes are bits of its first byte (20_memory.md R48). -/
theorem word16_top : (word16 b0 b1).extractLsb' (8 + start) len = b0.extractLsb' start len := by
  rw [word16, BitVec.extractLsb'_append_eq_of_le (by omega), Nat.add_sub_cancel_left]

theorem word24_top : (word24 b0 b1 b2).extractLsb' (16 + start) len = b0.extractLsb' start len := by
  rw [word24, BitVec.extractLsb'_append_eq_of_le (by omega), BitVec.extractLsb'_append_eq_of_le (by omega)]
  congr 1; omega

theorem word32_top : (word32 b0 b1 b2 b3).extractLsb' (24 + start) len = b0.extractLsb' start len := by
  rw [word32, BitVec.extractLsb'_append_eq_of_le (by omega), BitVec.extractLsb'_append_eq_of_le (by omega),
    BitVec.extractLsb'_append_eq_of_le (by omega)]
  congr 1; omega

end TopBits

/-- The tag of each kind's first bytes (30_encoding.md R72, R76). -/
theorem tag_lit_of_classify : ∀ b : Byte, classify b = .lit → b = 0xFF#8 := by decide

theorem tag_of_classify_top2 : ∀ b : Byte, (classify b = .tcs → b.extractLsb' 6 2 = 0b00#2) ∧
    (classify b = .tcl → b.extractLsb' 6 2 = 0b01#2) ∧ (classify b = .scs → b.extractLsb' 6 2 = 0b10#2) := by decide

theorem tag_of_classify_top3 : ∀ b : Byte, (classify b = .scl → b.extractLsb' 5 3 = 0b101#3) ∧
    (classify b = .sca → b.extractLsb' 5 3 = 0b110#3) := by decide

theorem reserved_range_of_classify : ∀ b : Byte, classify b = .reserved → 0xE0 ≤ b.toNat ∧ b.toNat ≤ 0xFE := by decide

section EncodeFields
variable {b0 : Byte} (b1 b2 b3 : Byte)

theorem encode_fieldsLit (h : classify b0 = .lit) : encode (fieldsLit (word16 b0 b1)) = [b0, b1] := by
  rw [tag_lit_of_classify b0 h, ← bytesOf16_word]
  exact congrArg (fun v => bytesOf16 (0xFF#8 ++ v)) BitVec.extractLsb'_append_eq_right

theorem encode_fieldsTcs (h : classify b0 = .tcs) : encode (fieldsTcs (word24 b0 b1 b2)) = [b0, b1, b2] := by
  rw [← bytesOf24_word]
  exact congrArg bytesOf24 (append_fields ((word24_top b0 b1 b2 6 2).trans ((tag_of_classify_top2 b0).1 h)))

theorem encode_fieldsTcl (h : classify b0 = .tcl) :
    encode (fieldsTcl (word32 b0 b1 b2 b3)) = [b0, b1, b2, b3] := by
  rw [← bytesOf32_word]
  exact congrArg bytesOf32 (append_fields ((word32_top b0 b1 b2 b3 6 2).trans ((tag_of_classify_top2 b0).2.1 h)))

theorem encode_fieldsScs (h : classify b0 = .scs) : encode (fieldsScs (word16 b0 b1)) = [b0, b1] := by
  rw [← bytesOf16_word]
  exact congrArg bytesOf16 (append_fields ((word16_top b0 b1 6 2).trans ((tag_of_classify_top2 b0).2.2 h)))

theorem encode_fieldsScl (h : classify b0 = .scl) : encode (fieldsScl (word24 b0 b1 b2)) = [b0, b1, b2] := by
  rw [← bytesOf24_word]
  exact congrArg bytesOf24 (append_fields ((word24_top b0 b1 b2 5 3).trans ((tag_of_classify_top3 b0).1 h)))

theorem encode_fieldsSca (h : classify b0 = .sca) :
    encode (fieldsSca (word32 b0 b1 b2 b3)) = [b0, b1, b2, b3] := by
  rw [← bytesOf32_word]
  exact congrArg bytesOf32 (append_fields ((word32_top b0 b1 b2 b3 5 3).trans ((tag_of_classify_top3 b0).2 h)))

end EncodeFields

/-- What decode answers, by the format its first byte selects. -/
inductive Decoded (rest : List Byte) : List Byte → Instr → Prop
  | lit {b0 : Byte} (b1 : Byte) (h : classify b0 = .lit) : Decoded rest (b0 :: b1 :: rest) (fieldsLit (word16 b0 b1))
  | tcs {b0 : Byte} (b1 b2 : Byte) (h : classify b0 = .tcs) :
      Decoded rest (b0 :: b1 :: b2 :: rest) (fieldsTcs (word24 b0 b1 b2))
  | tcl {b0 : Byte} (b1 b2 b3 : Byte) (h : classify b0 = .tcl) :
      Decoded rest (b0 :: b1 :: b2 :: b3 :: rest) (fieldsTcl (word32 b0 b1 b2 b3))
  | scs {b0 : Byte} (b1 : Byte) (h : classify b0 = .scs) : Decoded rest (b0 :: b1 :: rest) (fieldsScs (word16 b0 b1))
  | scl {b0 : Byte} (b1 b2 : Byte) (h : classify b0 = .scl) :
      Decoded rest (b0 :: b1 :: b2 :: rest) (fieldsScl (word24 b0 b1 b2))
  | sca {b0 : Byte} (b1 b2 b3 : Byte) (h : classify b0 = .sca) :
      Decoded rest (b0 :: b1 :: b2 :: b3 :: rest) (fieldsSca (word32 b0 b1 b2 b3))
  | reserved {b0 : Byte} (h : classify b0 = .reserved) : Decoded rest (b0 :: rest) (.reserved b0)

theorem decoded_of_decode {l : List Byte} {i : Instr} {rest : List Byte} (h : decode l = .ok (i, rest)) :
    Decoded rest l i := by
  cases l with
  | nil => cases h
  | cons b0 t =>
    simp only [decode] at h
    split at h <;> (try split at h) <;> cases h
    · exact .lit _ ‹_›
    · exact .tcs _ _ ‹_›
    · exact .tcl _ _ _ ‹_›
    · exact .scs _ ‹_›
    · exact .scl _ _ ‹_›
    · exact .sca _ _ _ ‹_›
    · exact .reserved ‹_›

/-- Settles O2: each format's word is its tag over its fields, and the bytes are cut from that word again. -/
theorem encodeOfDecodeIsIdentity : Obligations.EncodeOfDecodeIsIdentity := by
  intro l i rest hdecode
  cases decoded_of_decode hdecode with
  | lit b1 h => exact ⟨rfl, by rw [encode_fieldsLit b1 h]; rfl⟩
  | tcs b1 b2 h => exact ⟨rfl, by rw [encode_fieldsTcs b1 b2 h]; rfl⟩
  | tcl b1 b2 b3 h => exact ⟨rfl, by rw [encode_fieldsTcl b1 b2 b3 h]; rfl⟩
  | scs b1 h => exact ⟨decide_eq_true (scs_distance_le b1 h), by rw [encode_fieldsScs b1 h]; rfl⟩
  | scl b1 b2 h => exact ⟨rfl, by rw [encode_fieldsScl b1 b2 h]; rfl⟩
  | sca b1 b2 b3 h => exact ⟨rfl, by rw [encode_fieldsSca b1 b2 b3 h]; rfl⟩
  | reserved h =>
    obtain ⟨hlo, hhi⟩ := reserved_range_of_classify _ h
    exact ⟨by simp [Instr.wf, hlo, hhi], rfl⟩

/-! ### The first byte -/

/-- The rows of the first-byte table (30_encoding.md R70). -/
theorem classify_rows : ∀ b : Byte,
    (b.toNat ≤ 0x3F → classify b = .tcs) ∧ (0x40 ≤ b.toNat → b.toNat ≤ 0x7F → classify b = .tcl) ∧
    (0x80 ≤ b.toNat → b.toNat ≤ 0x9F → classify b = .scs) ∧ (0xA0 ≤ b.toNat → b.toNat ≤ 0xBF → classify b = .scl) ∧
    (0xC0 ≤ b.toNat → b.toNat ≤ 0xDF → classify b = .sca) ∧ (b.toNat = 0xFF → classify b = .lit) := by decide

/-- Settles O3: the 256 first bytes row by row, the sizes of the rows' kinds, and the inversion of decode. -/
theorem firstByteDecidesKindAndSize : Obligations.FirstByteDecidesKindAndSize := by
  have row {b : Byte} {k : Kind} (h : classify b = k) : classify b = k ∧ (classify b).size = k.size := ⟨h, by rw [h]⟩
  refine ⟨fun b => ?rows, fun b l i rest hdecode => ?decoded⟩
  case rows =>
    obtain ⟨htcs, htcl, hscs, hscl, hsca, hlit⟩ := classify_rows b
    exact ⟨fun h => row (htcs h), fun h h' => row (htcl h h'), fun h h' => row (hscs h h'),
      fun h h' => row (hscl h h'), fun h h' => row (hsca h h'), fun h h' => row (classify_reserved b h h'),
      fun h => row (hlit h)⟩
  case decoded =>
    obtain ⟨b0, t, hl, hkind, hlen, hdrop⟩ := decode_ok hdecode
    obtain ⟨rfl, rfl⟩ := List.cons.inj hl
    refine ⟨hkind, fun size hsize => ?_⟩
    rw [hkind, hsize] at hlen hdrop
    exact ⟨hlen, hdrop⟩

/-- Settles O5: each listed word is of the kind of its first byte, and its fields are computed. -/
theorem listedWordsDecodeAsListed : Obligations.ListedWordsDecodeAsListed :=
  ⟨decode_lit _ _ rfl, decode_tcs _ _ _ rfl, decode_tcl _ _ _ _ rfl, decode_scs _ _ rfl, decode_scl _ _ _ rfl,
    decode_sca _ _ _ _ rfl, decode_reserved _ rfl⟩

end Sys2Proof

namespace Sys2Proof.Machine

open Sys2Proof

/-! ### The instruction at CURSOR -/

theorem length_encode_le (i : Instr) : (encode i).length ≤ 4 := by
  cases i <;> simp [encode]

/-- Bytes at CURSOR, all before BS_LEN, that decode to an instruction are what is fetched: it is encoded in the first of
them, and the decoder looks at no others (20_memory.md R59). -/
theorem fetch_of_decode {s : State} {bytes : List Byte} {i : Instr} {rest : List Byte}
    (hbytes : ∀ k, k < bytes.length → s.bs.byte (s.cursor.toNat + k) = bytes.getD k 0)
    (hlen : s.cursor.toNat + bytes.length ≤ s.bsLen.toNat) (hdecode : decode bytes = .ok (i, rest)) :
    fetch s = .ok i := by
  obtain ⟨hwf, happend⟩ := encodeOfDecodeIsIdentity bytes i rest hdecode
  have hle : (encode i).length ≤ bytes.length := by rw [← happend, List.length_append]; omega
  have hmem : s.bs.bytes s.cursor.toNat (encode i).length = encode i :=
    Memory.bytes_of_agree _ _ _ fun k hk => by
      rw [hbytes k (hk.trans_le hle), ← happend, List.getD_append _ _ _ _ hk]
  have hwindow : (encode i).length ≤ min Config.instrMax (s.bsLen.toNat - s.cursor.toNat) :=
    Nat.le_min.2 ⟨length_encode_le i, by omega⟩
  obtain ⟨n, hn⟩ := Nat.exists_eq_add_of_le hwindow
  rw [fetch, fetchWindow, hn, Memory.bytes_add, hmem, decodeOfEncodeIsIdentity i _ hwf]

theorem fbdMove_fetched {s : State} {i : Instr} (hst : s.st = .busy) (hw : s.wp.toNat < 64000)
    (hf : fetch s = .ok i) : fbdMove s = exec i s := by
  rw [fbdMove_busy hst, if_pos hw, instrStep_fetched hf]

/-- Settles O6: a step with no turn, or a yield, is the FBD's move, and the move runs what is fetched. -/
theorem stepRunsDecodedInstruction : Obligations.StepRunsDecodedInstruction := by
  refine ⟨fun _ => step_no_turns, fun _ _ => step_yield, fun s bytes i rest hst hw hbytes hlen hdecode => ?_⟩
  have hf : fetch s = .ok i := fetch_of_decode hbytes hlen hdecode
  exact ⟨fun ht => (step_no_turns ht).trans (fbdMove_fetched hst hw hf),
    fun turns ht => (step_yield ht).trans (fbdMove_fetched (s := { s with turns := turns }) hst hw hf)⟩

end Sys2Proof.Machine
end

section
/-! PROOFS. What an instruction does, whatever the state: it commits, by the size of its kind, or enters its kind's fault
(40_instruction_cycle.md R100 to R106, 60_exceptions.md R178); what it keeps (20_memory.md R43, R46); which forms agree
(30_encoding.md R83, 43_self_copy.md R132, R133). -/

namespace Sys2Proof

/-- The fault an instruction's meaning can enter, by kind (60_exceptions.md R173 to R176); LIT has none. -/
def Kind.faultCode : Kind → Machine.FaultCode
  | .tcs | .tcl => .refRange
  | .scs | .scl => .backRange
  | .sca => .absRange
  | .reserved => .reserved
  | .lit => .none

end Sys2Proof

namespace Sys2Proof.Machine

open Sys2Proof

/-! ### The five copies are one operation -/

/-- A copy instruction is a run of the copy engine with its length, its kind's size and its kind's fault
(40_instruction_cycle.md R106). -/
theorem exec_copy {i : Instr} {length : Nat} (h : i.copyLength = some length) :
    ∃ src size, i.kind.size = some size ∧ src.faultCode = i.kind.faultCode ∧
      ∀ s, exec i s = runCopy src length size s := by
  cases i <;> cases h
  case tcs position length => exact ⟨.absoluteRef position.toNat, 3, rfl, rfl, fun _ => rfl⟩
  case tcl position length => exact ⟨.absoluteRef position.toNat, 4, rfl, rfl, fun _ => rfl⟩
  case scs distance length => exact ⟨.backward distance.toNat, 2, rfl, rfl, fun _ => rfl⟩
  case scl distance length => exact ⟨.backward distance.toNat, 3, rfl, rfl, fun _ => rfl⟩
  case sca position length => exact ⟨.absoluteOut position.toNat, 4, rfl, rfl, fun _ => rfl⟩

/-- An instruction with no length is a literal or a reserved first byte. -/
theorem lit_or_reserved_of_copyLength_none {i : Instr} (h : i.copyLength = none) :
    (∃ v, i = .lit v) ∨ ∃ b0, i = .reserved b0 := by
  cases i <;> cases h
  case lit v => exact .inl ⟨v, rfl⟩
  case reserved b0 => exact .inr ⟨b0, rfl⟩

/-- A run of the copy engine copies, or enters its source's fault. -/
theorem runCopy_next {src : Source} {length size : Nat} {s t : State} (h : runCopy src length size s = .next t) :
    t = copyDone src length size s ∨ t = takeFault src.faultCode s := by
  by_cases hc : clampCount length s.wp.toNat = 0 ∨ src.inRange s.wp.toNat (clampCount length s.wp.toNat) = true
  · rw [runCopy_eq_copyDone size hc] at h
    exact .inl (Host.Outcome.next.inj h).symm
  · obtain ⟨h0, hr⟩ := not_or.1 hc
    rw [runCopy_fault h0 (Bool.eq_false_iff.2 hr)] at h
    exact .inr (Host.Outcome.next.inj h).symm

section CopyDone
variable (src : Source) (length size : Nat) (s : State)

/-- What a copy commits (40_instruction_cycle.md R104). -/
theorem copyDone_wp : (copyDone src length size s).wp.toNat = s.wp.toNat + clampCount length s.wp.toNat := by
  obtain ⟨_, _, _, hwp, _⟩ :=
    copyBytes_frame src.space (clampCount length s.wp.toNat) (src.index s.wp.toNat) s.wp.toNat s
  rw [copyDone, commitCopy_wp, hwp, BitVec.toNat_ofNat, Nat.mod_eq_of_lt (wp_add_lt ..)]

theorem copyDone_cursor : (copyDone src length size s).cursor = s.cursor + BitVec.ofNat 32 size :=
  (committed_copy ..).cursor.trans (BitVec.eq_of_toNat_eq (by simp))

theorem copyDone_clamped :
    (copyDone src length size s).clamped = (s.clamped || decide (clampCount length s.wp.toNat < length)) := by
  obtain ⟨_, _, _, _, _, _, _, _, hcl, _⟩ :=
    copyBytes_frame src.space (clampCount length s.wp.toNat) (src.index s.wp.toNat) s.wp.toNat s
  rw [copyDone, commitCopy_clamped, hcl, clampedAfter]

theorem copyDone_elsewhere {a : Nat} (h : a < s.wp.toNat ∨ (copyDone src length size s).wp.toNat ≤ a) :
    (copyDone src length size s).outByte a = s.outByte a := by
  rw [copyDone_wp] at h
  rw [copyDone, outByte_commitCopy]
  exact copyBytes_elsewhere _ _ _ _ _ _ h

/-- The size of a copy instruction reaches CURSOR alone. -/
theorem copyDone_size (size' : Nat) : copyDone src length size' s =
    { copyDone src length size s with cursor := s.cursor + BitVec.ofNat 32 size' } := by
  rw [← copyDone_cursor src length size' s]
  rfl

/-- A length beyond the space left fills the frame exactly and sets CLAMPED (40_instruction_cycle.md R100). -/
theorem copyDone_clamps (hw : s.wp.toNat < 64000) (hlen : 64000 - s.wp.toNat < length) :
    (copyDone src length size s).wp.toNat = 64000 ∧ (copyDone src length size s).clamped = true := by
  have hn : clampCount length s.wp.toNat = 64000 - s.wp.toNat := Nat.min_eq_right hlen.le
  rw [copyDone_wp, copyDone_clamped, hn, decide_eq_true hlen, Bool.or_true]
  exact ⟨by omega, rfl⟩

/-- One that fits is written whole and leaves CLAMPED. -/
theorem copyDone_fits (hlen : length ≤ 64000 - s.wp.toNat) :
    (copyDone src length size s).wp.toNat = s.wp.toNat + length ∧
      (copyDone src length size s).clamped = s.clamped := by
  have hn : clampCount length s.wp.toNat = length := Nat.min_eq_left hlen
  rw [copyDone_wp, copyDone_clamped, hn, decide_eq_false (Nat.lt_irrefl _), Bool.or_false]
  exact ⟨rfl, rfl⟩

end CopyDone

/-! ### What an instruction's meaning answers -/

@[simp] theorem outByte_takeFault (c : FaultCode) (s : State) (a : Nat) : (takeFault c s).outByte a = s.outByte a := by
  simp [State.outByte]

@[simp] theorem refByte_takeFault (c : FaultCode) (s : State) (a : Nat) : (takeFault c s).refByte a = s.refByte a := by
  simp [State.refByte]

theorem Source.faultCode_ne_none (src : Source) : src.faultCode ≠ .none := by
  cases src <;> simp [Source.faultCode]

/-- The inversion of exec, whatever the state: an instruction commits, by the size of its kind, or enters its kind's
fault. -/
theorem exec_next {i : Instr} {s t : State} (h : exec i s = .next t) :
    (∃ size, i.kind.size = some size ∧ Committed size s t) ∨
    (i.kind.faultCode ≠ .none ∧ t = takeFault i.kind.faultCode s) := by
  cases hl : i.copyLength with
  | some length =>
    obtain ⟨src, size, hsize, hcode, he⟩ := exec_copy hl
    rw [he] at h
    rw [← hcode]
    obtain rfl | rfl := runCopy_next h
    · exact .inl ⟨size, hsize, committed_copy ..⟩
    · exact .inr ⟨src.faultCode_ne_none, rfl⟩
  | none =>
    obtain ⟨v, rfl⟩ | ⟨b0, rfl⟩ := lit_or_reserved_of_copyLength_none hl
    · by_cases hw : s.wp.toNat < 64000
      · rw [execLit_inside v hw] at h
        cases h
        exact .inl ⟨2, rfl, committed_lit v s hw⟩
      · simp [exec, execLit, putOp, hw] at h
    · rw [exec_reserved] at h
      cases h
      exact .inr ⟨by simp [Instr.kind, Kind.faultCode], rfl⟩

/-- Settles O18: a commit and a fault entry both keep REF and ROLE. -/
theorem referenceFrameIsReadOnly : Obligations.ReferenceFrameIsReadOnly := by
  intro i s t h
  obtain ⟨size, _, hc⟩ | ⟨_, rfl⟩ := exec_next h
  · exact ⟨hc.frame.role, hc.ref, hc.refByte⟩
  · exact ⟨rfl, takeFault_ref .., refByte_takeFault _ s⟩

/-- Settles O19: a commit keeps them all, and a fault entry writes FAULT_CODE and ST alone. -/
theorem instructionsKeepTheSessionRegisters : Obligations.InstructionsKeepTheSessionRegisters := by
  intro i s t h
  obtain ⟨size, _, hc⟩ | ⟨hcode, rfl⟩ := exec_next h
  · have hf := hc.frame
    exact ⟨hf.frameCount, hf.bsLen, hf.bs, hf.eom, hf.frameIndex, hf.role, hf.turns, hf.replies, hf.draws,
      hf.decodeFrom, .inl ⟨hf.st, hf.faultCode⟩⟩
  · exact ⟨rfl, rfl, rfl, rfl, rfl, rfl, rfl, rfl, rfl, rfl, .inr ⟨rfl, hcode⟩⟩

/-! ### The clamp, and copies of length 0 -/

/-- A copy of length 0 advances CURSOR and does nothing else (40_instruction_cycle.md R101). -/
theorem runCopy_zero (src : Source) (size : Nat) (s : State) :
    runCopy src 0 size s = .next { s with cursor := s.cursor + BitVec.ofNat 32 size } := by
  have h0 : clampCount 0 s.wp.toNat = 0 := Nat.zero_min _
  rw [runCopy_eq_copyDone size (.inl h0), copyDone, h0, copyBytes]
  simp [commitCopy, commit, clampedAfter, BitVec.ofNat_add]

/-- Settles O15: each of the five is the copy engine with length 0. -/
theorem zeroLengthCopiesAreNoOps : Obligations.ZeroLengthCopiesAreNoOps := fun s position distance8 distance13 =>
  ⟨runCopy_zero (.absoluteRef position.toNat) 3 s, runCopy_zero (.absoluteRef position.toNat) 4 s,
    runCopy_zero (.backward distance8.toNat) 2 s, runCopy_zero (.backward distance13.toNat) 3 s,
    runCopy_zero (.absoluteOut position.toNat) 4 s⟩

/-- Settles O16: a copy that stays in BUSY is the copy engine's commit. -/
theorem clampFillsTheFrameExactly : Obligations.ClampFillsTheFrameExactly := by
  intro i length s t hw hcopy hexec hst
  have hlength : i.copyLength = some length := by
    obtain ⟨_, _, rfl, rfl⟩ | ⟨_, _, rfl, rfl⟩ | ⟨_, _, rfl, rfl⟩ | ⟨_, _, rfl, rfl⟩ | ⟨_, _, rfl, rfl⟩ := hcopy <;> rfl
  obtain ⟨src, size, hsize, _, he⟩ := exec_copy hlength
  rw [he] at hexec
  obtain rfl | rfl := runCopy_next hexec
  · rw [hsize]
    exact ⟨copyDone_cursor .., copyDone_clamps src length size s hw, copyDone_fits src length size s⟩
  · cases hst

/-! ### Forms that agree -/

/-- Two copy instructions of one source and length, of different sizes, commit states that differ in CURSOR alone. -/
theorem runCopy_sizes_agree {src : Source} {length : Nat} (size size' : Nat) {s : State}
    (hc : copyCount length s = 0 ∨ src.inRange s.wp.toNat (copyCount length s) = true) :
    ∃ t, runCopy src length size s = .next t ∧
      runCopy src length size' s = .next { t with cursor := s.cursor + BitVec.ofNat 32 size' } :=
  ⟨_, runCopy_eq_copyDone size hc, by rw [runCopy_eq_copyDone size' hc, copyDone_size src length size s size']⟩

theorem exec_tcl_setWidth (position : BitVec 16) (length : BitVec 6) (s : State) :
    exec (.tcl position (length.setWidth 14)) s = runCopy (.absoluteRef position.toNat) length.toNat 4 s := by
  rw [← BitVec.toNat_setWidth_of_le (b := length) (by decide : 6 ≤ 14)]
  rfl

theorem exec_scl_setWidth (distance : BitVec 8) (length : BitVec 6) (s : State) :
    exec (.scl (distance.setWidth 13) (length.setWidth 8)) s =
      runCopy (.backward distance.toNat) length.toNat 3 s := by
  rw [← BitVec.toNat_setWidth_of_le (b := length) (by decide : 6 ≤ 8),
    ← BitVec.toNat_setWidth_of_le (b := distance) (by decide : 8 ≤ 13)]
  rfl

/-- Settles O21: the two forms are one copy, but for the size. -/
theorem shortAndLongFormsAgree : Obligations.ShortAndLongFormsAgree := by
  refine ⟨fun position length s => ?temporal, fun distance length s => ?backward⟩
  case temporal =>
    rw [exec_tcl_setWidth]
    exact ⟨fun h => runCopy_sizes_agree 3 4 (h.imp_right absoluteRef_inRange_iff.2),
      fun h0 hp => (runCopy_absoluteRef_fault 3 h0 hp).trans (runCopy_absoluteRef_fault 4 h0 hp).symm⟩
  case backward =>
    rw [exec_scl_setWidth]
    exact ⟨fun h => runCopy_sizes_agree 2 3 (h.imp_right fun ⟨h1, h2⟩ => backward_inRange _ h1 h2),
      fun h0 hd => (runCopy_backward_fault 2 h0 hd).trans (runCopy_backward_fault 3 h0 hd).symm⟩

/-- Two copies of one count that write the same bytes leave the same OUT. -/
theorem copied_outByte_eq {f g : Nat → Byte} {length length' size size' : Nat} {s t u : State}
    (ht : Copied f length size s t) (hu : Copied g length' size' s u) (hn : copyCount length' s = copyCount length s)
    (hfg : ∀ i, i < copyCount length s → g i = f i) (a : Nat) : u.outByte a = t.outByte a := by
  by_cases ha : a < s.wp.toNat ∨ s.wp.toNat + copyCount length s ≤ a
  · rw [ht.elsewhere a ha, hu.elsewhere a (hn ▸ ha)]
  · obtain ⟨i, rfl⟩ := Nat.exists_eq_add_of_le (Nat.le_of_not_lt (not_or.1 ha).1)
    have hi : i < copyCount length s := by omega
    rw [ht.written i hi, hu.written i (hn ▸ hi), hfg i hi]

/-- Settles O22: the source range ends below WP, so no byte of it is reached a second time by the pattern. -/
theorem absoluteCopyEqualsBackwardCopy : Obligations.AbsoluteCopyEqualsBackwardCopy := by
  intro position length distance short s hdist hshort hrange hpos
  have hn : copyCount short.toNat s = copyCount length.toNat s := by rw [hshort]
  obtain ⟨t, ht, htc⟩ := runCopy_absoluteOut_copied 4 (.inr hrange)
  obtain ⟨u, hu, huc⟩ := runCopy_backward_copied (length := short.toNat) 3 (s := s) (distance := distance.toNat)
    (.inr ⟨by omega, by omega⟩)
  have hsource (i : Nat) (hi : i < copyCount length.toNat s) :
      s.outByte (s.wp.toNat - distance.toNat + i % distance.toNat) = s.outByte (position.toNat + i) := by
    rw [Nat.mod_eq_of_lt (by omega), show s.wp.toNat - distance.toNat = position.toNat by omega]
  refine ⟨t, ht, u, hu, copied_outByte_eq htc huc hn hsource, ?wp, ?clamped, ?cursor, htc.frame, huc.frame⟩
  case wp => exact BitVec.eq_of_toNat_eq (by rw [huc.wp, htc.wp, hn])
  case clamped => rw [huc.clamped, htc.clamped, hn, hshort]
  case cursor => rw [huc.cursor, htc.cursor, BitVec.add_assoc]; rfl

/-! ### The instruction step -/

/-- The inversion of an instruction step that answers `t`. -/
theorem instrStep_next {s t : State} (hw : s.wp.toNat < 64000) (h : instrStep s = .next t) :
    (∃ i size, fetch s = .ok i ∧ i.kind.size = some size ∧ s.cursor.toNat + size ≤ s.bsLen.toNat ∧
      Committed size s t) ∨ ∃ c, c ≠ .none ∧ c ≠ .config ∧ t = takeFault c s := by
  obtain ⟨u, hu, hcases⟩ := instrStep_cases s hw
  obtain rfl : u = t := Host.Outcome.next.inj (hu.symm.trans h)
  exact hcases

/-- The commit of an instruction that lies before BS_LEN moves CURSOR on by its size, as an exact sum. -/
theorem Committed.cursor_toNat {size : Nat} {s t : State} (hc : Committed size s t)
    (hb : s.cursor.toNat + size ≤ s.bsLen.toNat) : t.cursor.toNat = s.cursor.toNat + size := by
  rw [hc.cursor, BitVec.toNat_ofNat, Nat.mod_eq_of_lt (hb.trans_lt s.bsLen.isLt)]

theorem Kind.eq_reserved_of_size_none {kind : Kind} (h : kind.size = none) : kind = .reserved := by
  cases kind
  case reserved => rfl
  all_goals cases h

/-- Settles O9: the fetch fails, or answers an instruction of the first byte's kind, which commits or enters its fault. -/
theorem firstApplicableFaultIsRaised : Obligations.FirstApplicableFaultIsRaised := by
  intro s ht hst hw kind
  rw [step_instrStep ht hst hw]
  by_cases hmissing : s.bsLen.toNat ≤ s.cursor.toNat
  · exact ⟨_, instrStep_unfetched (fetch_none hmissing), fun _ => by rw [if_pos hmissing]; rfl, fun _ => rfl⟩
  have hlt : s.cursor.toNat < s.bsLen.toNat := Nat.lt_of_not_le hmissing
  simp only [hmissing, if_false, false_or]
  cases hsize : kind.size with
  | none =>
    have hfetch := fetch_reserved hlt (Kind.eq_reserved_of_size_none hsize)
    exact ⟨_, (instrStep_fetched hfetch).trans (exec_reserved _ s), fun _ => rfl, fun _ => rfl⟩
  | some size =>
    by_cases hshort : s.bsLen.toNat < s.cursor.toNat + size
    · exact ⟨_, instrStep_unfetched (fetch_truncated hlt hsize hshort), fun _ => (if_pos hshort).symm, fun _ => rfl⟩
    obtain ⟨i, _, hfetch⟩ := fetch_of_size hsize (Nat.le_of_not_lt hshort)
    have hkind : i.kind = kind := fetch_kind hlt hfetch
    obtain ⟨t, hexec, _⟩ := exec_cases i s hw
    refine ⟨t, (instrStep_fetched hfetch).trans hexec, fun hfault => ?_, ?_⟩
    · obtain ⟨_, _, hc⟩ | ⟨_, rfl⟩ := exec_next hexec
      · rw [hc.frame.st, hst] at hfault
        cases hfault
      · simp only [hkind, takeFault_faultCode, hshort, if_false]
        clear_value kind
        cases kind
        case reserved => cases hsize
        all_goals rfl
    · rintro (h | ⟨n, hn, h⟩)
      · cases h
      · cases hn
        exact absurd h hshort

/-- No instruction moves WP back, or writes a byte of OUT that lies below the old WP or from the new one on
(40_instruction_cycle.md R111). -/
theorem exec_writes_ahead {i : Instr} {s t : State} (hw : s.wp.toNat < 64000) (h : exec i s = .next t) :
    s.wp.toNat ≤ t.wp.toNat ∧ ∀ a, a < s.wp.toNat ∨ t.wp.toNat ≤ a → t.outByte a = s.outByte a := by
  cases hl : i.copyLength with
  | some length =>
    obtain ⟨src, size, _, _, he⟩ := exec_copy hl
    rw [he] at h
    obtain rfl | rfl := runCopy_next h
    · exact ⟨by rw [copyDone_wp]; omega, fun _ => copyDone_elsewhere src length size s⟩
    · exact ⟨le_rfl, fun a _ => outByte_takeFault _ s a⟩
  | none =>
    obtain ⟨v, rfl⟩ | ⟨b0, rfl⟩ := lit_or_reserved_of_copyLength_none hl
    · obtain ⟨u, hu, hwp, _, _, hout, _⟩ := literalWritesOnePixel v s hw
      obtain rfl : u = t := Host.Outcome.next.inj (hu.symm.trans h)
      exact ⟨by omega, fun a ha => by rw [hout, if_neg (by omega)]⟩
    · rw [exec_reserved] at h
      cases h
      exact ⟨le_rfl, fun a _ => outByte_takeFault _ s a⟩

theorem instrStep_writes_ahead {s t : State} (hw : s.wp.toNat < 64000) (h : instrStep s = .next t) :
    s.wp.toNat ≤ t.wp.toNat ∧ ∀ a, a < s.wp.toNat ∨ t.wp.toNat ≤ a → t.outByte a = s.outByte a := by
  cases hf : fetch s with
  | ok i => exact exec_writes_ahead hw ((instrStep_fetched hf).symm.trans h)
  | error c =>
    rw [instrStep_unfetched hf] at h
    cases h
    exact ⟨le_rfl, fun a _ => outByte_takeFault c s a⟩

/-- Settles O29: a commit keeps the ranges, and no instruction writes outside the bytes it moves WP over. -/
theorem everyAccessStaysInRange : Obligations.EveryAccessStaysInRange := by
  intro s ht hst hw hcur
  rw [step_instrStep ht hst hw]
  obtain ⟨t, hstep, hcases⟩ := instrStep_cases s hw
  obtain ⟨hforward, hout⟩ := instrStep_writes_ahead hw hstep
  obtain ⟨_, size, _, _, hb, hc⟩ | ⟨c, _, _, rfl⟩ := hcases
  · refine ⟨t, hstep, hc.wp_le hw.le, hforward, ?_, hout⟩
    rwa [hc.cursor_toNat hb, hc.frame.bsLen]
  · exact ⟨_, hstep, hw.le, hforward, hcur, hout⟩

end Sys2Proof.Machine
end

section
/-! PROOFS. The two agents' moves taken apart once, by the whole next state, and what follows for the host's transactions
(10_state.md R24 to R27, 44_host_commands.md R146 to R151, R160 to R162, 20_memory.md R56, R58), for FAULT (60_exceptions.md
R180) and for the invariant (10_state.md R32). -/

namespace Sys2Proof.Machine

open Sys2Proof

/-! ### The inversion of each agent's move -/

/-- What a host transaction can do, by the whole next state: one of the three accepted commands, a write of FRAME_COUNT,
BS_LEN or BS in IDLE, a reset, or nothing but a reply received and a free value drawn (44_host_commands.md R150). -/
inductive HostEffect (s : State) : HostOp → State → Prop
  | starts (hst : s.st = .idle) : HostEffect s (.writeReg 0 1) (cmdStart s)
  | decodes (hst : s.st = .ready) : HostEffect s (.writeReg 0 2) (cmdDecode s)
  | stops (hst : s.st = .ready ∨ s.st = .fault) : HostEffect s (.writeReg 0 3) (cmdStop s)
  | setsCount (value : Word) (hst : s.st = .idle) : HostEffect s (.writeReg 5 value) { s with frameCount := value }
  | setsLength (value : Word) (hst : s.st = .idle) : HostEffect s (.writeReg 6 value) { s with bsLen := value }
  | loads (offset : Offset) (value : Byte) (hst : s.st = .idle) :
      HostEffect s (.loadBs offset value) { s with bs := s.bs.set offset.toNat value }
  | resets : HostEffect s .powerOnReset (powerOnReset s)
  | observes (op : HostOp) (replies : List Reply) (draws : Nat) :
      HostEffect s op { s with replies := replies, draws := draws }

theorem hostEffect_of_writeCmd (v : Word) (s : State) : HostEffect s (.writeReg 0 v) (writeCmd v s) := by
  by_cases h : CmdAccepted s.st v
  · obtain ⟨hst, rfl⟩ | ⟨hst, rfl | rfl⟩ | ⟨hst, rfl⟩ := h
    · rw [writeCmd_start hst]; exact .starts hst
    · rw [writeCmd_decode hst]; exact .decodes hst
    · rw [writeCmd_stop (.inl hst)]; exact .stops (.inl hst)
    · rw [writeCmd_stop (.inr hst)]; exact .stops (.inr hst)
  · rw [writeCmd_dropped h]; exact .observes ..

/-! The register writes, one equation per outcome (10_state.md R27). -/

theorem writeReg_frameCount {s : State} (value : Word) (hst : s.st = .idle) :
    writeReg 5 value s = { s with frameCount := value } := if_pos hst

theorem writeReg_bsLen {s : State} (value : Word) (hst : s.st = .idle) :
    writeReg 6 value s = { s with bsLen := value } := if_pos hst

theorem writeReg_outside_idle {s : State} {n : Nat} (value : Word) (hn : n = 5 ∨ n = 6) (hst : s.st ≠ .idle) :
    writeReg n value s = s := by
  obtain rfl | rfl := hn <;> exact if_neg hst

theorem writeReg_readOnly {n : Nat} (value : Word) (s : State) (hn : 1 ≤ n ∧ n ≤ 4 ∨ 6 < n) :
    writeReg n value s = s := by
  match n, hn with
  | 1, _ | 2, _ | 3, _ | 4, _ | _ + 7, _ => rfl

theorem hostEffect_of_writeReg (n : Nat) (v : Word) (s : State) : HostEffect s (.writeReg n v) (writeReg n v s) := by
  obtain rfl | hn | hn : n = 0 ∨ (n = 5 ∨ n = 6) ∨ (1 ≤ n ∧ n ≤ 4 ∨ 6 < n) := by omega
  · exact hostEffect_of_writeCmd v s
  · by_cases hst : s.st = .idle
    · obtain rfl | rfl := hn
      · rw [writeReg_frameCount v hst]; exact .setsCount v hst
      · rw [writeReg_bsLen v hst]; exact .setsLength v hst
    · rw [writeReg_outside_idle v hn hst]; exact .observes ..
  · rw [writeReg_readOnly v s hn]; exact .observes ..

theorem hostEffect_of_readWindow (index : Nat) (s : State) : HostEffect s (.readWindow index) (readWindow index s) := by
  unfold readWindow
  split
  · exact .observes ..
  · exact .observes ..

theorem loadBs_idle {s : State} (offset : Offset) (value : Byte) (hst : s.st = .idle) :
    loadBs offset value s = .next { s with bs := s.bs.set offset.toNat value } := if_pos hst

theorem loadBs_refused {s : State} (offset : Offset) (value : Byte) (hst : s.st ≠ .idle) :
    loadBs offset value s = .refused .bitstreamWriteInSession := if_neg hst

theorem hostEffect_of_hostAct {s t : State} {op : HostOp} (h : hostAct op s = .next t) : HostEffect s op t := by
  cases op with
  | writeReg n v => cases h; exact hostEffect_of_writeReg n v s
  | readReg n => cases h; exact .observes ..
  | readWindow index => cases h; exact hostEffect_of_readWindow index s
  | loadBs offset value =>
    by_cases hst : s.st = .idle
    · cases (loadBs_idle offset value hst).symm.trans h
      exact .loads offset value hst
    · cases (loadBs_refused offset value hst).symm.trans h
  | powerOnReset => cases h; exact .resets

/-- What the FBD's move can do, by the whole next state: wait, take an instruction step, or complete the frame
(40_instruction_cycle.md R95). -/
inductive FbdEffect (s t : State) : Prop
  | waits (hst : s.st ≠ .busy) (h : t = s)
  | instruction (hst : s.st = .busy) (hw : s.wp.toNat < 64000) (h : instrStep s = .next t)
  | completes (hst : s.st = .busy) (hwp : s.wp.toNat = 64000) (h : t = completeFrame s)

theorem fbdEffect_of_fbdMove {s t : State} (h : fbdMove s = .next t) : FbdEffect s t := by
  by_cases hst : s.st = .busy
  · rw [fbdMove_busy hst] at h
    split_ifs at h with hlt hwp
    · exact .instruction hst hlt h
    · exact .completes hst hwp (Host.Outcome.next.inj h).symm
  · exact .waits hst (Host.Outcome.next.inj ((fbdMove_waits hst).symm.trans h)).symm

/-- With WP in its range the FBD's move answers a next state (40_instruction_cycle.md R111). -/
theorem fbdMove_total {s : State} (hw : s.wp.toNat ≤ 64000) : ∃ t, fbdMove s = .next t := by
  by_cases hst : s.st = .busy
  · rw [fbdMove_busy hst]
    split_ifs with hlt hwp
    · obtain ⟨t, ht, _⟩ := instrStep_cases s hlt
      exact ⟨t, ht⟩
    · exact ⟨_, rfl⟩
    · omega
  · exact ⟨s, fbdMove_waits hst⟩

/-- What a step can do: the FBD's effect or a host transaction's, on the state with the turn consumed. -/
inductive StepEffect (s t : State) : Prop
  | fbd (hf : FbdMoves s) (turns : List HostTurn) (h : FbdEffect { s with turns := turns } t)
  | host (op : HostOp) (turns : List HostTurn) (ht : s.turns = .act op :: turns)
      (h : HostEffect { s with turns := turns } op t)

theorem stepEffect_of_step {s t : State} (h : step s = .next t) : StepEffect s t := by
  obtain ⟨hf, r, hr⟩ | ⟨op, r, ht⟩ := step_agent_cases s
  · exact .fbd hf r (fbdEffect_of_fbdMove (hr.symm.trans h))
  · exact .host op r ht (hostEffect_of_hostAct ((step_act ht).symm.trans h))

/-! ### CURSOR, FAULT and the code -/

/-- Of the FBD's effects only a commit moves CURSOR (40_instruction_cycle.md R112). -/
theorem FbdEffect.cursor {s t : State} (h : FbdEffect s t) : t.cursor = s.cursor ∨
    ∃ size, (classify (s.bs.byte s.cursor.toNat)).size = some size ∧
      t.cursor.toNat = s.cursor.toNat + size ∧ t.cursor.toNat ≤ s.bsLen.toNat := by
  cases h with
  | waits _ he => subst he; exact .inl rfl
  | completes _ _ he => subst he; exact .inl rfl
  | instruction _ hw hstep =>
    obtain ⟨i, size, hf, hsize, hb, hc⟩ | ⟨c, _, _, rfl⟩ := instrStep_next hw hstep
    · have hcur := hc.cursor_toNat hb
      rw [fetch_kind (cursor_lt_of_fetch hf) hf] at hsize
      exact .inr ⟨size, hsize, hcur, hcur ▸ hb⟩
    · exact .inl rfl

/-- Of the host's effects START and a reset alone move CURSOR, to 0. -/
theorem HostEffect.cursor {s t : State} {op : HostOp} (h : HostEffect s op t) : t.cursor = s.cursor ∨
    (t.cursor = 0 ∧ ((op = .writeReg 0 1 ∧ s.st = .idle) ∨ op = .powerOnReset)) := by
  cases h with
  | starts hst =>
    by_cases hn : s.frameCount.toNat < 2
    · rw [cmdStart_refuses hn]; exact .inl rfl
    · rw [cmdStart_opens (Nat.not_lt.1 hn)]; exact .inr ⟨rfl, .inl ⟨rfl, hst⟩⟩
  | resets => exact .inr ⟨rfl, .inr rfl⟩
  | decodes | stops | setsCount | setsLength | loads | observes => exact .inl rfl

/-- Settles O20: each agent's effect on CURSOR; consuming a turn has none. -/
theorem cursorMovesOnlyForward : Obligations.CursorMovesOnlyForward := by
  refine ⟨fun s t ht h => ?fbd, fun op s t turns ht h => ?host⟩
  case fbd => exact (fbdEffect_of_fbdMove ((step_no_turns ht).symm.trans h)).cursor
  case host =>
    exact (hostEffect_of_hostAct ((step_act ht).symm.trans h)).cursor

/-- A step from FAULT other than a reset leaves the block alone, but for a STOP, which writes ST (60_exceptions.md R180). -/
theorem step_from_fault {s t : State} (hst : s.st = .fault) (h : step s = .next t)
    (hreset : ∀ turns, s.turns ≠ .act .powerOnReset :: turns) :
    ∃ turns replies draws st, t = { s with turns := turns, replies := replies, draws := draws, st := st } ∧
      (st = .fault ∨ (st = .idle ∧ ∃ turns, s.turns = .act (.writeReg 0 3) :: turns)) := by
  cases stepEffect_of_step h with
  | fbd _ r he =>
    cases he with
    | waits _ he => exact ⟨r, s.replies, s.draws, s.st, he, .inl hst⟩
    | instruction hb => cases hst.symm.trans hb
    | completes hb => cases hst.symm.trans hb
  | host op r ht he =>
    cases he with
    | observes _ replies draws => exact ⟨r, replies, draws, s.st, rfl, .inl hst⟩
    | stops _ => exact ⟨r, s.replies, s.draws, .idle, rfl, .inr ⟨rfl, r, ht⟩⟩
    | resets => exact absurd ht (hreset r)
    | starts hb | decodes hb | setsCount _ hb | setsLength _ hb | loads _ _ hb => cases hst.symm.trans hb

/-- Settles O43: what a step from FAULT can write is ST and the model's own fields. -/
theorem onlyStopLeavesFault : Obligations.OnlyStopLeavesFault := by
  intro s t hst h hreset
  obtain ⟨_, _, _, st, rfl, hleaves⟩ := step_from_fault hst h hreset
  exact ⟨rfl, rfl, rfl, rfl, rfl, rfl, rfl, rfl, rfl, rfl, rfl, rfl, hleaves⟩

/-- Settles O44: with a code recorded no session is open, so neither an instruction nor a DECODE comes next. -/
theorem faultCodeIsSticky : Obligations.FaultCodeIsSticky := by
  intro s t hinv hcode h
  have closed : ¬(s.st = .ready ∨ s.st = .busy) := fun hopen => hcode (hinv.open_code hopen)
  cases stepEffect_of_step h with
  | fbd _ r he =>
    cases he with
    | waits _ he => subst he; exact .inl rfl
    | instruction hb => exact absurd (.inr hb) closed
    | completes hb => exact absurd (.inr hb) closed
  | host op r ht he =>
    cases he with
    | starts hst => exact .inr (.inl ⟨r, ht, hst⟩)
    | resets => exact .inr (.inr ⟨r, ht⟩)
    | decodes hst => exact absurd (.inl hst) closed
    | stops | setsCount | setsLength | loads | observes => exact .inl rfl

/-- Settles O46: in BUSY the host's effects but a reset are to observe. -/
theorem hostHasNoEffectWhileBusy : Obligations.HostHasNoEffectWhileBusy := by
  intro s t op turns hst ht hreset h
  cases hostEffect_of_hostAct ((step_act ht).symm.trans h) with
  | observes => rfl
  | resets => exact absurd rfl hreset
  | stops hb => obtain hb | hb := hb <;> cases hst.symm.trans hb
  | starts hb | decodes hb | setsCount _ hb | setsLength _ hb | loads _ _ hb => cases hst.symm.trans hb

/-! ### The end of a session -/

theorem sessionEnd_endOfMovie {s : State} (hst : s.st = .idle) (hcode : s.faultCode = .none) (heom : s.eom = true) :
    sessionEnd s = some .endOfMovie := by
  simp [sessionEnd, hst, hcode, heom]

theorem sessionEnd_stopped {s : State} (hst : s.st = .idle) (hcode : s.faultCode = .none) (heom : s.eom = false) :
    sessionEnd s = some .stopped := by
  simp [sessionEnd, hst, hcode, heom]

theorem sessionEnd_faulted {s : State} (hst : s.st = .idle) (hcode : s.faultCode ≠ .none) (heom : s.eom = false) :
    sessionEnd s = some .faulted := by
  simp [sessionEnd, hst, hcode, heom]

/-- An instruction step from BUSY ends in BUSY or in FAULT. -/
theorem instrStep_st {s t : State} (hw : s.wp.toNat < 64000) (hst : s.st = .busy) (h : instrStep s = .next t) :
    t.st = .busy ∨ t.st = .fault := by
  obtain ⟨_, _, _, _, _, hc⟩ | ⟨_, _, _, rfl⟩ := instrStep_next hw h
  · exact .inl (hc.frame.st.trans hst)
  · exact .inr rfl

/-- Settles O50: of the effects on a session only the last completion and STOP lead to IDLE. -/
theorem sessionEndsInOneOfThreeWays : Obligations.SessionEndsInOneOfThreeWays := by
  intro s t hinv hopen h hidle hreset
  have heom := hinv.eom_false hopen
  cases stepEffect_of_step h with
  | fbd _ r he =>
    cases he with
    | waits _ he => subst he; exact absurd hidle hopen
    | instruction hb hw hstep =>
      obtain hst | hst := instrStep_st hw hb hstep <;> cases hidle.symm.trans hst
    | completes hb _ he =>
      subst he
      obtain ⟨hl, he⟩ | ⟨_, he⟩ := completeFrame_cases { s with turns := r } <;> rw [he] at hidle ⊢
      · exact .inl ⟨sessionEnd_endOfMovie rfl (hinv.open_code (.inr hb)) rfl, hb, of_decide_eq_true hl⟩
      · cases hidle
  | host op r ht he =>
    cases he with
    | stops hst =>
      obtain hst | hst := hst
      · exact .inr (.inl ⟨sessionEnd_stopped rfl (hinv.open_code (.inl hst)) heom, hst, rfl, r, ht⟩)
      · exact .inr (.inr ⟨sessionEnd_faulted rfl (hinv.fault_code hst) heom, hst, rfl, r, ht⟩)
    | resets => exact absurd ht (hreset r)
    | decodes => cases hidle
    | observes => exact absurd hidle hopen
    | starts hb | setsCount _ hb | setsLength _ hb | loads _ _ hb => exact absurd hb hopen

/-! ### CLAMPED -/

theorem cmdStart_clamped (s : State) : (cmdStart s).clamped = false := by
  by_cases hn : s.frameCount.toNat < 2
  · rw [cmdStart_refuses hn]; rfl
  · rw [cmdStart_opens (Nat.not_lt.1 hn)]

/-- The move from `s` to `t` commits a copy longer than the space left (40_instruction_cycle.md R100). -/
def Truncates (s t : State) : Prop :=
  s.st = .busy ∧ s.wp.toNat < 64000 ∧ t.st = .busy ∧
    ∃ i length, fetch s = .ok i ∧ i.copyLength = some length ∧ 64000 - s.wp.toNat < length

/-- A fault is no commit. -/
theorem not_truncates_takeFault (c : FaultCode) (s : State) : ¬Truncates s (takeFault c s) := by
  rintro ⟨_, _, hst, _⟩
  cases hst

/-- Whether an instruction truncates is decided by its length: it commits one that does, which sets CLAMPED. -/
theorem exec_clamped {i : Instr} {s t : State} (hst : s.st = .busy) (hw : s.wp.toNat < 64000) (hf : fetch s = .ok i)
    (h : exec i s = .next t) :
    (Truncates s t ∧ t.clamped = true ∧ t.wp.toNat = 64000) ∨ (¬Truncates s t ∧ t.clamped = s.clamped) := by
  cases hl : i.copyLength with
  | some length =>
    obtain ⟨src, size, _, _, he⟩ := exec_copy hl
    rw [he] at h
    obtain rfl | rfl := runCopy_next h
    · by_cases hlen : 64000 - s.wp.toNat < length
      · obtain ⟨hwp, hcl⟩ := copyDone_clamps src length size s hw hlen
        have hbusy := (copyDone_frame src length size s).st.trans hst
        exact .inl ⟨⟨hst, hw, hbusy, i, length, hf, hl, hlen⟩, hcl, hwp⟩
      · refine .inr ⟨?_, (copyDone_fits src length size s (Nat.le_of_not_lt hlen)).2⟩
        rintro ⟨_, _, _, j, length', hj, hl', hlen'⟩
        cases hf.symm.trans hj
        cases hl.symm.trans hl'
        exact hlen hlen'
    · exact .inr ⟨not_truncates_takeFault _ s, rfl⟩
  | none =>
    have hnot : ¬Truncates s t := by
      rintro ⟨_, _, _, j, length', hj, hl', _⟩
      cases hf.symm.trans hj
      cases hl.symm.trans hl'
    obtain ⟨v, rfl⟩ | ⟨b0, rfl⟩ := lit_or_reserved_of_copyLength_none hl
    · obtain ⟨u, hu, _, _, hcl, _⟩ := literalWritesOnePixel v s hw
      cases hu.symm.trans h
      exact .inr ⟨hnot, hcl⟩
    · cases h
      exact .inr ⟨hnot, rfl⟩

theorem FbdEffect.clamped {s t : State} (h : FbdEffect s t) :
    (Truncates s t ∧ t.clamped = true ∧ t.wp.toNat = 64000) ∨ (¬Truncates s t ∧ t.clamped = s.clamped) := by
  cases h with
  | waits hst he => subst he; exact .inr ⟨fun ht => hst ht.1, rfl⟩
  | completes _ hwp he => subst he; exact .inr ⟨fun ht => Nat.ne_of_lt ht.2.1 hwp, rfl⟩
  | instruction hst hw hstep =>
    cases hf : fetch s with
    | ok i => exact exec_clamped hst hw hf ((instrStep_fetched hf).symm.trans hstep)
    | error c =>
      cases (instrStep_unfetched hf).symm.trans hstep
      exact .inr ⟨not_truncates_takeFault _ s, rfl⟩

/-- Settles O49: the host's transactions by their effect on CLAMPED, and the FBD's by whether it truncates. -/
theorem clampedIsClearedByCommandsAndSetByACopy : Obligations.ClampedIsClearedByCommandsAndSetByACopy := by
  refine ⟨fun s t op turns ht h => ?host, fun s t hf h => ?fbd⟩
  case host =>
    obtain ⟨hop, hst, rfl⟩ | ⟨hop, hst, rfl⟩ | ⟨hop, rfl⟩ | ⟨hns, hnd, hnr, _, _, _, hcl, _⟩ := hostTurn_cases ht h
    · exact ⟨fun _ => cmdStart_clamped _, fun hn => absurd (.inr (.inl ⟨hop, hst⟩)) hn⟩
    · exact ⟨fun _ => rfl, fun hn => absurd (.inl ⟨hop, hst⟩) hn⟩
    · exact ⟨fun _ => rfl, fun hn => absurd (.inr (.inr hop)) hn⟩
    · exact ⟨fun hc => absurd hc (not_or.2 ⟨hnd, not_or.2 ⟨hns, hnr⟩⟩), fun _ => hcl⟩
  case fbd =>
    cases stepEffect_of_step h with
    | host op r ht _ => exact absurd ⟨r, ht⟩ (FbdMoves.not_act hf op)
    | fbd _ r he =>
      obtain ⟨htr, hset⟩ | ⟨hnot, hkeep⟩ := he.clamped
      · exact ⟨fun _ => hset, fun hn => absurd htr hn⟩
      · exact ⟨fun htr => absurd htr hnot, fun _ => hkeep⟩

/-! ### The invariant -/

/-- Settles O26. The invariant asks nothing of the turns, and IDLE with empty memories meets it. -/
theorem resetMeetsTheInvariant : Obligations.ResetMeetsTheInvariant := inv_reset

/-- Settles O27: by the agent whose turn it is. -/
theorem everyStepKeepsTheInvariant : Obligations.EveryStepKeepsTheInvariant := fun _ _ => step_keeps_inv

/-- Settles O30: WP in its range makes the FBD's move total, and of the host's transactions only a store into BS can be
refused. -/
theorem onlyAHostBitstreamWriteIsRefused : Obligations.OnlyAHostBitstreamWriteIsRefused := by
  intro s hinv
  obtain ⟨_, r, hstep⟩ | ⟨op, r, ht⟩ := step_agent_cases s
  · exact .inl (hstep ▸ fbdMove_total hinv.wp_le)
  · rw [step_act ht]
    cases op with
    | writeReg n v => exact .inl ⟨_, rfl⟩
    | readReg n => exact .inl ⟨_, rfl⟩
    | readWindow index => exact .inl ⟨_, rfl⟩
    | powerOnReset => exact .inl ⟨_, rfl⟩
    | loadBs offset value =>
      by_cases hst : s.st = .idle
      · exact .inl ⟨_, loadBs_idle offset value hst⟩
      · exact .inr ⟨loadBs_refused offset value hst, hst, offset, value, r, ht⟩

/-- Settles O31: outside BUSY the FBD's move is to wait. -/
theorem blockWaitsForTheHost : Obligations.BlockWaitsForTheHost :=
  fun _ ht hst => (step_no_turns ht).trans (fbdMove_waits hst)

/-! ### The host's commands -/

/-- Settles O33: the step is START, and START refuses the count. -/
theorem startRefusesAnEmptyMovie : Obligations.StartRefusesAnEmptyMovie :=
  fun _ _ ht hst hcount => (step_start ht hst).trans (congrArg _ (cmdStart_refuses hcount))

/-- Settles O34: the table accepts both, and their effects are the states named. -/
theorem decodeAndStopAreAccepted : Obligations.DecodeAndStopAreAccepted :=
  ⟨fun _ _ ht hst => (step_writeCmd ht).trans (congrArg _ (writeCmd_decode hst)),
    fun _ _ ht hst => (step_writeCmd ht).trans (congrArg _ (writeCmd_stop hst))⟩

/-- Settles O42: a tick in READY is one turn, STOP or DECODE. -/
theorem cancelledTickDecodesNothing : Obligations.CancelledTickDecodesNothing := by
  intro s hst
  obtain ⟨hdecode, hstop⟩ := decodeAndStopAreAccepted
  rw [hst]
  exact ⟨fun ht => runSteps_succ (hstop s [] ht (.inl hst)), fun ht => runSteps_succ (hdecode s [] ht hst)⟩

/-! ### The frame window and the bitstream memory -/

theorem readWindow_ready {s : State} {k : Nat} (hst : s.st = .ready) (hk : k < 64000) :
    readWindow k s = { s with replies := s.replies ++ [.pixel (s.refByte k)] } := if_pos ⟨hst, hk⟩

theorem readWindow_free {s : State} {k : Nat} (h : s.st ≠ .ready ∨ 64000 ≤ k) : readWindow k s =
    { s with replies := s.replies ++ [.pixel (Config.freeByte s.draws k)], draws := s.draws + 1 } :=
  if_neg fun ⟨hst, hk⟩ => h.elim (absurd hst) (Nat.not_le_of_lt hk)

theorem step_readWindow {s : State} {k : Nat} {turns : List HostTurn} (ht : s.turns = .act (.readWindow k) :: turns) :
    step s = .next (readWindow k { s with turns := turns }) := by
  rw [step_act ht]; rfl

/-- Settles O38: the two outcomes of a window read. -/
theorem frameReadWindow : Obligations.FrameReadWindow := by
  intro s k turns ht
  rw [step_readWindow ht]
  exact ⟨fun hst hk => congrArg _ (readWindow_ready hst hk), fun h => ⟨_, congrArg _ (readWindow_free h)⟩⟩

/-- Settles O39: the two outcomes of a store, and a read of BS after it. -/
theorem hostLoadsTheBitstreamInIdle : Obligations.HostLoadsTheBitstreamInIdle := by
  intro s offset value turns ht
  rw [step_act ht]
  exact ⟨fun hst => ⟨_, loadBs_idle offset value hst, fun a => Memory.byte_set s.bs offset.toNat a value, rfl⟩,
    fun hst => loadBs_refused offset value hst⟩

theorem fbdMove_completes {s : State} (hst : s.st = .busy) (hwp : s.wp.toNat = 64000) :
    fbdMove s = .next (completeFrame s) := by
  simp [fbdMove_busy hst, hwp]

/-- Frame completion exchanges REF and OUT, and no data moves (44_host_commands.md R148). -/
theorem completeFrame_refByte (s : State) (a : Nat) : (completeFrame s).refByte a = s.outByte a := rfl

theorem completeFrame_outByte (s : State) (a : Nat) : (completeFrame s).outByte a = s.refByte a := by
  have hout : (completeFrame s).out = s.fb s.role.other.other := rfl
  rw [State.outByte, hout, Buf.other_other, State.refByte, State.ref]

theorem completeFrame_ready {s : State} (h : s.frameIndex.toNat + 2 < s.frameCount.toNat) :
    (completeFrame s).st = .ready := by
  obtain ⟨hl, _⟩ | ⟨_, he⟩ := completeFrame_cases s
  · rw [(lastFrame_succ (by omega)).2, decide_eq_true_iff] at hl
    omega
  · rw [he]

/-- Settles O45: the completion exchanges the buffers, and the window then shows the new REF. -/
theorem completedFrameIsShown : Obligations.CompletedFrameIsShown := by
  intro s k hst hwp hidx hk ht
  have hcompletes := (step_yield ht).trans (fbdMove_completes hst hwp)
  have hready := completeFrame_ready (s := { s with turns := [.act (.readWindow k)] }) hidx
  have hshows : step (completeFrame { s with turns := [.act (.readWindow k)] }) = .next _ := step_readWindow rfl
  rw [readWindow_ready (by exact hready) hk] at hshows
  exact ⟨_, (runSteps_succ hcompletes).trans (runSteps_succ hshows), hready, rfl,
    fun a => ⟨completeFrame_refByte s a, completeFrame_outByte s a⟩⟩

/-! ### The host register file -/

/-- CMD and the numbers above 6 read as 0 (10_state.md R24). -/
theorem regValue_unreadable {n : Nat} (h : n = 0 ∨ 6 < n) (s : State) : regValue n s = 0 := by
  match n, h with
  | 0, _ | _ + 7, _ => rfl

theorem regValue_cursor (s : State) : regValue 2 s = (observed s).cursor := rfl

theorem regValue_wp (s : State) : (regValue 3 s).toNat = (observed s).wp.toNat :=
  BitVec.toNat_setWidth_of_le (by decide)

/-- Consuming a turn leaves the moments of a DECODE. -/
theorem decodeMoment_turns (s : State) (turns : List HostTurn) (k : Nat) :
    SameTrail (decodeMoment k s) (decodeMoment k { s with turns := turns }) :=
  decodeMoment_congr (s := s) (t := { s with turns := turns }) rfl rfl rfl rfl k

/-- What a read in BUSY sees, with its own turn consumed, is a moment of the DECODE (44_host_commands.md R151). -/
theorem observed_turns_moment {s : State} (turns : List HostTurn) (hst : s.st = .busy) :
    ∃ k, SameTrail (decodeMoment k s) (observed { s with turns := turns }) := by
  rw [observed_moment (s := { s with turns := turns }) hst]
  exact ⟨_, decodeMoment_turns s turns _⟩

theorem step_readReg {s : State} {n : Nat} {turns : List HostTurn} (ht : s.turns = .act (.readReg n) :: turns) :
    step s = .next { s with
      turns := turns, replies := s.replies ++ [.register (regValue n { s with turns := turns })],
      draws := if s.st = .busy then s.draws + 1 else s.draws } := by
  rw [step_act ht]; rfl

theorem step_writeReg {s : State} {n : Nat} {value : Word} {turns : List HostTurn}
    (ht : s.turns = .act (.writeReg n value) :: turns) :
    step s = .next (writeReg n value { s with turns := turns }) := by
  rw [step_act ht]; rfl

/-- Settles O36: the value read, register by register, and the outcomes of a write. -/
theorem hostRegisterFile : Obligations.HostRegisterFile := by
  refine ⟨fun s n turns ht => ?reads, fun s n value turns ht => ?writes⟩
  case reads =>
    refine ⟨_, _, step_readReg ht, fun h => congrArg BitVec.toNat (regValue_unreadable h _), fun h => h ▸ rfl,
      fun h => h ▸ rfl, fun h => h ▸ rfl, fun hst => ?present, fun hst => ?moment⟩
    case present =>
      have hseen := observed_present (s := { s with turns := turns }) hst
      exact ⟨if_neg hst, fun h => by rw [h, regValue_cursor, hseen], fun h => by rw [h, regValue_wp, hseen]⟩
    case moment =>
      obtain ⟨k, hseen⟩ := observed_turns_moment turns hst
      exact ⟨fun h => ⟨k, by rw [h, regValue_cursor, hseen.cursor]⟩,
        fun h => ⟨k, by rw [h, regValue_wp, hseen.wp]⟩⟩
  case writes =>
    rw [step_writeReg ht]
    exact ⟨fun hn hst => hn ▸ congrArg _ (writeReg_frameCount value hst),
      fun hn hst => hn ▸ congrArg _ (writeReg_bsLen value hst),
      fun hn hst => congrArg _ (writeReg_outside_idle value hn hst), fun hn => congrArg _ (writeReg_readOnly value _ hn)⟩

/-! ### STATUS -/

theorem toNat_append_add {m n : Nat} (x : BitVec m) (y : BitVec n) : (x ++ y).toNat = x.toNat * 2 ^ n + y.toNat := by
  rw [BitVec.toNat_append, ← Nat.shiftLeft_add_eq_or_of_lt y.isLt, Nat.shiftLeft_eq]

/-- STATUS as a number: each field at its place, and nothing between them (10_state.md R25). -/
theorem statusWord_toNat (s : State) : (statusWord s).toNat =
    s.st.code.toNat + 4 * s.role.code.toNat + 8 * s.clamped.toNat + 16 * s.eom.toNat + 256 * s.faultCode.code.toNat := by
  simp only [statusWord, toNat_append_add, BitVec.toNat_ofBool, BitVec.toNat_ofNat]
  omega

/-- Settles O37: the five fields of the word read, each by its code. -/
theorem statusLayout : Obligations.StatusLayout := by
  intro s turns ht
  refine ⟨_, (observed { s with turns := turns }).clamped, _, step_readReg ht, fun hst => ?present, fun hst => ?moment,
    (statusWord_toNat _).trans ?layout⟩
  case present => exact ⟨if_neg hst, by rw [observed_present (s := { s with turns := turns }) hst]⟩
  case moment =>
    obtain ⟨k, hseen⟩ := observed_turns_moment turns hst
    exact ⟨k, hseen.clamped⟩
  case layout =>
    refine congrArg₂ _ (congrArg₂ _ (congrArg₂ _ (congrArg₂ _ ?st ?role) ?clamped) ?eom) (congrArg _ ?code)
    case st => dsimp only; cases s.st <;> rfl
    case role => dsimp only; cases s.role <;> rfl
    case clamped => dsimp only; cases (observed { s with turns := turns }).clamped <;> rfl
    case eom => dsimp only; cases s.eom <;> rfl
    case code => dsimp only; cases s.faultCode <;> rfl

end Sys2Proof.Machine
end

section
/-! PROOFS. Runs of many steps: every DECODE ends (40_instruction_cycle.md R110), the moments of its replay stay in range and
take in the present values (44_host_commands.md R151), and the boot sequence (70_reset_and_hazards.md R202). -/

namespace Sys2Proof.Machine

open Sys2Proof

/-! ### The moments of a DECODE -/

/-- CURSOR, WP and CLAMPED are those of moment `k`, and so is all else a moment depends on. -/
theorem sameTrail_of_moment {s : State} {k : Nat} (hst : s.st = .busy)
    (hcur : (decodeMoment k s).cursor = s.cursor) (hwp : (decodeMoment k s).wp = s.wp)
    (hcl : (decodeMoment k s).clamped = s.clamped) : SameTrail s (decodeMoment k s) := by
  obtain ⟨hb, hbs, hlen⟩ := momentAfter_keep k (s := decodeStart s) hst
  exact ⟨hbs, hlen, hb.trans hst.symm, hcur, hwp, hcl⟩

/-- An instruction step that stays in BUSY goes on to the next moment. -/
theorem onTheTrail_of_instrStep {s t : State} (h : OnTheTrail s) (hst : s.st = .busy) (hw : s.wp.toNat < 64000)
    (hstep : instrStep s = .next t) : OnTheTrail t := by
  intro hbusy
  obtain ⟨k, hcur, hwp, hcl⟩ := h hst
  have hnext : nextMoment s = t := by simp [nextMoment, hw, hstep, hbusy]
  have hframe : t.bs = s.bs ∧ t.bsLen = s.bsLen ∧ t.decodeFrom = s.decodeFrom := by
    obtain ⟨_, _, _, _, _, hc⟩ | ⟨_, _, _, rfl⟩ := instrStep_next hw hstep
    · exact ⟨hc.frame.bs, hc.frame.bsLen, hc.frame.decodeFrom⟩
    · cases hbusy
  obtain ⟨hbs, hlen, hfrom⟩ := hframe
  have hthere : SameTrail t (decodeMoment (k + 1) s) := by
    rw [decodeMoment_succ, ← hnext]
    exact (sameTrail_of_moment hst hcur hwp hcl).nextMoment
  have hsame := hthere.trans (decodeMoment_congr hbs hlen (hbusy.trans hst.symm) hfrom (k + 1))
  exact ⟨k + 1, hsame.cursor, hsame.wp, hsame.clamped⟩

/-- The trail is a matter of the block alone: turns, replies and the count of free values do not enter it. -/
theorem onTheTrail_of_agents {s : State} (h : OnTheTrail s) (turns : List HostTurn) (replies : List Reply)
    (draws : Nat) : OnTheTrail { s with turns := turns, replies := replies, draws := draws } := by
  intro hst
  obtain ⟨k, hcur, hwp, hcl⟩ := h hst
  have hsame := decodeMoment_congr (s := s) (t := { s with turns := turns, replies := replies, draws := draws })
    rfl rfl rfl rfl k
  exact ⟨k, hsame.cursor.trans hcur, hsame.wp.trans hwp, hsame.clamped.trans hcl⟩

theorem onTheTrail_of_not_busy {s : State} (hst : s.st ≠ .busy) : OnTheTrail s := fun hb => absurd hb hst

theorem onTheTrail_of_fbdEffect {s t : State} (h : OnTheTrail s) (he : FbdEffect s t) : OnTheTrail t := by
  cases he with
  | waits _ he => exact he ▸ h
  | instruction hst hw hstep => exact onTheTrail_of_instrStep h hst hw hstep
  | completes _ _ he => exact onTheTrail_of_not_busy (he ▸ (completeFrame_leaves s).1)

theorem cmdStart_st_ne_busy (s : State) : (cmdStart s).st ≠ .busy := by
  by_cases hn : s.frameCount.toNat < 2
  · simp [cmdStart_refuses hn]
  · simp [cmdStart_opens (Nat.not_lt.1 hn)]

/-- A DECODE begins at its first moment; every other transaction in BUSY leaves the block alone. -/
theorem onTheTrail_of_hostEffect {s t : State} {op : HostOp} (h : OnTheTrail s) (he : HostEffect s op t) :
    OnTheTrail t := by
  cases he with
  | decodes _ => exact fun _ => ⟨0, rfl, rfl, rfl⟩
  | observes _ replies draws => exact onTheTrail_of_agents h s.turns replies draws
  | starts _ => exact onTheTrail_of_not_busy (cmdStart_st_ne_busy s)
  | stops _ => exact onTheTrail_of_not_busy nofun
  | resets => exact onTheTrail_of_not_busy nofun
  | setsCount _ hst | setsLength _ hst | loads _ _ hst => exact onTheTrail_of_not_busy (by simp [hst])

/-- Settles O51: by the effect of the agent that moves. -/
theorem presentValuesStayOnTheTrail : Obligations.PresentValuesStayOnTheTrail := by
  refine ⟨fun turns => onTheTrail_of_not_busy nofun, fun s t h hstep => ?_⟩
  cases stepEffect_of_step hstep with
  | fbd _ r he => exact onTheTrail_of_fbdEffect (onTheTrail_of_agents h r s.replies s.draws) he
  | host op r _ he => exact onTheTrail_of_hostEffect (onTheTrail_of_agents h r s.replies s.draws) he

/-- One more moment keeps WP in the frame, and CURSOR between its value before and BS_LEN (40_instruction_cycle.md R111). -/
theorem nextMoment_in_range {s : State} (hwp : s.wp.toNat ≤ 64000) (hcur : s.cursor.toNat ≤ s.bsLen.toNat) :
    (nextMoment s).wp.toNat ≤ 64000 ∧ s.cursor.toNat ≤ (nextMoment s).cursor.toNat ∧
      (nextMoment s).cursor.toNat ≤ s.bsLen.toNat := by
  obtain ⟨t, hw, ht, hst, he⟩ | ⟨_, he⟩ := nextMoment_cases s <;> rw [he]
  · obtain ⟨_, size, _, _, hb, hc⟩ | ⟨_, _, _, rfl⟩ := instrStep_next hw ht
    · have hsum := hc.cursor_toNat hb
      exact ⟨hc.wp_le hwp, by omega, by omega⟩
    · cases hst
  · exact ⟨hwp, le_rfl, hcur⟩

/-- Settles O52: by induction on the moment. -/
theorem everyMomentIsInRange : Obligations.EveryMomentIsInRange := by
  intro s k hst hfrom
  have keep (k : Nat) := momentAfter_keep k (s := decodeStart s) hst
  refine ⟨(keep k).1, ?_⟩
  induction k with
  | zero => exact ⟨Nat.zero_le _, le_rfl, hfrom⟩
  | succ k ih =>
    obtain ⟨hwp, hlow, hhigh⟩ := ih
    have hlen : (decodeMoment k s).bsLen = s.bsLen := (keep k).2.2
    obtain ⟨hwp', hlow', hhigh'⟩ := nextMoment_in_range hwp (hlen ▸ hhigh)
    rw [decodeMoment_succ]
    exact ⟨hwp', hlow.trans hlow', hlen ▸ hhigh'⟩

/-! ### Every DECODE ends -/

/-- The DECODE that `s` is inside is over in `t`: a fault was raised, with ROLE and FRAME_INDEX as before, or the frame is
complete, with the roles exchanged and the frame counted. -/
def DecodeEnded (s t : State) : Prop :=
  (t.st = .fault ∧ t.role = s.role ∧ t.frameIndex = s.frameIndex) ∨
    ((t.st = .ready ∨ t.st = .idle) ∧ t.wp.toNat = 64000 ∧ t.role = s.role.other ∧ t.frameIndex = s.frameIndex + 1#32)

theorem DecodeEnded.st_ne_busy {s t : State} (h : DecodeEnded s t) : t.st ≠ .busy := by
  obtain ⟨h, _⟩ | ⟨h | h, _⟩ := h <;> simp [h]

/-- How many instructions the bytes from CURSOR to BS_LEN can hold: none is shorter than 2 bytes (30_encoding.md R70). -/
def instructionsLeft (s : State) : Nat := (s.bsLen.toNat - s.cursor.toNat) / 2

/-- Turns that leave a DECODE to itself: no reset and no store into BS. -/
def HarmlessTurns (turns : List HostTurn) : Prop :=
  ∀ op, HostTurn.act op ∈ turns → op ≠ .powerOnReset ∧ ∀ offset value, op ≠ .loadBs offset value

/-- The DECODE of the same frame goes on in `t`, with an instruction or a turn less to come. -/
structure DecodeGoesOn (s t : State) : Prop where
  st : t.st = .busy
  wp_le : t.wp.toNat ≤ 64000
  role : t.role = s.role
  frameIndex : t.frameIndex = s.frameIndex
  harmless : HarmlessTurns t.turns
  fewer : instructionsLeft t + t.turns.length < instructionsLeft s + s.turns.length

theorem DecodeEnded.of_goesOn {s t u : State} (h : DecodeEnded t u) (hg : DecodeGoesOn s t) : DecodeEnded s u := by
  rwa [DecodeEnded, hg.role, hg.frameIndex] at h

theorem completeFrame_ends {s : State} (hwp : s.wp.toNat = 64000) : DecodeEnded s (completeFrame s) := by
  obtain ⟨_, he⟩ | ⟨_, he⟩ := completeFrame_cases s <;> rw [he]
  · exact .inr ⟨.inr rfl, hwp, rfl, rfl⟩
  · exact .inr ⟨.inl rfl, hwp, rfl, rfl⟩

/-- The FBD's step in BUSY ends the DECODE, or goes on with fewer instructions left: the one it committed has at least 2
bytes (40_instruction_cycle.md R110). -/
theorem fbdStep_in_decode {s : State} {r : List HostTurn} (hst : s.st = .busy) (hwp : s.wp.toNat ≤ 64000)
    (hstep : step s = fbdMove { s with turns := r }) (hr : HarmlessTurns r) (hlen : r.length ≤ s.turns.length) :
    ∃ t, step s = .next t ∧ (DecodeEnded s t ∨ DecodeGoesOn s t) := by
  obtain ⟨t, ht⟩ := fbdMove_total (s := { s with turns := r }) hwp
  refine ⟨t, hstep.trans ht, ?_⟩
  cases fbdEffect_of_fbdMove ht with
  | waits hn => exact absurd hst hn
  | completes _ hdone he => subst he; exact .inl (completeFrame_ends hdone)
  | instruction _ hw hi =>
    obtain ⟨_, size, _, hsize, hb, hc⟩ | ⟨_, _, _, rfl⟩ := instrStep_next hw hi
    · have hturns : t.turns = r := hc.frame.turns
      have hmin := (Kind.size_bounds hsize).1
      refine .inr ⟨hc.frame.st.trans hst, hc.wp_le hwp, hc.frame.role, hc.frame.frameIndex, hturns ▸ hr, ?_⟩
      rw [instructionsLeft, instructionsLeft, hc.cursor_toNat hb, hc.frame.bsLen, hturns]
      dsimp only at hb ⊢
      omega
    · exact .inl (.inl ⟨rfl, rfl, rfl⟩)

/-- A harmless transaction in BUSY is one step, and leaves the block alone. -/
theorem step_harmless {s : State} {op : HostOp} {turns : List HostTurn} (hst : s.st = .busy)
    (ht : s.turns = .act op :: turns) (hop : op ≠ .powerOnReset ∧ ∀ offset value, op ≠ .loadBs offset value) :
    ∃ replies draws, step s = .next { s with turns := turns, replies := replies, draws := draws } := by
  have htotal : ∃ t, step s = .next t := by
    rw [step_act ht]
    cases op with
    | loadBs offset value => exact absurd rfl (hop.2 offset value)
    | writeReg | readReg | readWindow | powerOnReset => exact ⟨_, rfl⟩
  obtain ⟨t, hstep⟩ := htotal
  exact ⟨t.replies, t.draws, hostHasNoEffectWhileBusy s t op turns hst ht hop.1 hstep ▸ hstep⟩

/-- A step in BUSY ends the DECODE, or goes on with an instruction or a turn less to come. -/
theorem step_in_decode {s : State} (hst : s.st = .busy) (hwp : s.wp.toNat ≤ 64000) (hturns : HarmlessTurns s.turns) :
    ∃ t, step s = .next t ∧ (DecodeEnded s t ∨ DecodeGoesOn s t) := by
  cases ht : s.turns with
  | nil => exact fbdStep_in_decode hst hwp (by rw [step_no_turns ht]) hturns le_rfl
  | cons turn r =>
    have hr : HarmlessTurns r := fun op hop => hturns op (ht ▸ List.mem_cons_of_mem _ hop)
    cases turn with
    | yield => exact fbdStep_in_decode hst hwp (step_yield ht) hr (by rw [ht]; exact Nat.le_succ _)
    | act op =>
      obtain ⟨replies, draws, hstep⟩ := step_harmless hst ht (hturns op (ht ▸ List.mem_cons_self ..))
      exact ⟨_, hstep, .inr ⟨hst, hwp, rfl, rfl, hr, by rw [ht]; exact Nat.lt_succ_self _⟩⟩

/-- Every DECODE ends, within one step for each instruction and each turn to come and one more. -/
theorem decode_ends (n : Nat) : ∀ s : State, s.st = .busy → s.wp.toNat ≤ 64000 → HarmlessTurns s.turns →
    instructionsLeft s + s.turns.length ≤ n → ∃ m t, m ≤ n + 1 ∧ runSteps m s = .next t ∧ DecodeEnded s t := by
  induction n with
  | zero =>
    intro s hst hwp hturns hn
    obtain ⟨t, hstep, hend | hg⟩ := step_in_decode hst hwp hturns
    · exact ⟨1, t, le_rfl, runSteps_succ hstep, hend⟩
    · exact absurd (hg.fewer.trans_le hn) (Nat.not_lt_zero _)
  | succ n ih =>
    intro s hst hwp hturns hn
    obtain ⟨t, hstep, hend | hg⟩ := step_in_decode hst hwp hturns
    · exact ⟨1, t, by omega, runSteps_succ hstep, hend⟩
    · obtain ⟨m, u, hm, hrun, hend⟩ := ih t hg.st hg.wp_le hg.harmless (Nat.le_of_lt_succ (hg.fewer.trans_le hn))
      exact ⟨m + 1, u, by omega, (runSteps_succ hstep).trans hrun, hend.of_goesOn hg⟩

/-- With no turn pending a run has none pending at its end. -/
theorem runSteps_no_turns {k : Nat} : ∀ {s t : State}, s.turns = [] → runSteps k s = .next t → t.turns = [] := by
  induction k with
  | zero => intro s t ht hrun; cases hrun; exact ht
  | succ k ih =>
    intro s t ht hrun
    obtain ⟨u, hu, hrest⟩ := runSteps_succ_next hrun
    exact ih (fbdMove_turns ht ((step_no_turns ht).symm.trans hu)) hrest

/-- Settles O25: the DECODE ends within the bound, and the block then waits. -/
theorem everyDecodeEnds : Obligations.EveryDecodeEnds := by
  refine ⟨fun s ht hst hwp => ?alone, fun s hturns hst hwp => ?withTurns⟩
  case alone =>
    obtain ⟨m, t, hm, hrun, hend⟩ := decode_ends _ s hst hwp (ht ▸ nofun) le_rfl
    obtain ⟨k, hk⟩ := Nat.exists_eq_add_of_le hm
    have hwaits := runSteps_waits (k := k) (runSteps_no_turns ht hrun) hend.st_ne_busy
    rw [ht] at hk
    refine ⟨t, ?_, hend⟩
    exact (congrArg (runSteps · s) hk).trans ((runSteps_add hrun).trans hwaits)
  case withTurns =>
    obtain ⟨m, t, hm, hrun, hend⟩ := decode_ends _ s hst hwp hturns le_rfl
    exact ⟨m, t, by rw [instructionsLeft] at hm; omega, hrun, hend⟩

/-! ### The boot sequence -/

theorem Memory.setBytes_below (l : List Byte) : ∀ (m : Memory) (a x : Nat), x < a →
    (m.setBytes a l).byte x = m.byte x := by
  induction l with
  | nil => intro m a x _; rfl
  | cons b r ih =>
    intro m a x hx
    rw [Memory.setBytes, ih _ _ _ (by omega), Memory.byte_set_other (by omega)]

/-- Bytes stored from an address on read back. -/
theorem Memory.setBytes_byte (l : List Byte) : ∀ (m : Memory) (a k : Nat), k < l.length →
    (m.setBytes a l).byte (a + k) = l.getD k 0 := by
  induction l with
  | nil => intro m a k hk; cases hk
  | cons b r ih =>
    intro m a k hk
    rw [Memory.setBytes]
    cases k with
    | zero => rw [Memory.setBytes_below r _ _ _ (by omega), Nat.add_zero, Memory.byte_set_same, List.getD_cons_zero]
    | succ k =>
      rw [show a + (k + 1) = a + 1 + k by omega, ih _ _ _ (by simpa using hk), List.getD_cons_succ]

theorem step_loadBs {s : State} {offset : Offset} {value : Byte} {turns : List HostTurn} (hst : s.st = .idle)
    (ht : s.turns = .act (.loadBs offset value) :: turns) :
    step s = .next { s with turns := turns, bs := s.bs.set offset.toNat value } :=
  (step_act ht).trans (loadBs_idle (s := { s with turns := turns }) offset value hst)

/-- The host's stores from IDLE, one step each, leave the bytes in BS (70_reset_and_hazards.md R202 step 5). -/
theorem runSteps_loadTurns (bytes : List Byte) (rest : List HostTurn) : ∀ (offset : Nat) (s : State), s.st = .idle →
    s.turns = loadTurns offset bytes ++ rest → offset + bytes.length ≤ 2 ^ 32 →
    runSteps bytes.length s = .next { s with turns := rest, bs := s.bs.setBytes offset bytes } := by
  induction bytes with
  | nil =>
    intro offset s _ ht _
    rw [loadTurns, List.nil_append] at ht
    rw [← ht]; rfl
  | cons b r ih =>
    intro offset s hst ht hlen
    rw [List.length_cons] at hlen
    have hoffset : (BitVec.ofNat 32 offset).toNat = offset := by
      rw [BitVec.toNat_ofNat, Nat.mod_eq_of_lt (by omega)]
    have hstep := step_loadBs hst ht
    rw [hoffset] at hstep
    exact (runSteps_succ hstep).trans (ih _ _ hst rfl (by omega))

theorem step_sets_frameCount {s : State} {value : Word} {turns : List HostTurn} (hst : s.st = .idle)
    (ht : s.turns = .act (.writeReg 5 value) :: turns) :
    step s = .next { s with turns := turns, frameCount := value } :=
  (step_writeReg ht).trans (congrArg _ (writeReg_frameCount value hst))

theorem step_sets_bsLen {s : State} {value : Word} {turns : List HostTurn} (hst : s.st = .idle)
    (ht : s.turns = .act (.writeReg 6 value) :: turns) :
    step s = .next { s with turns := turns, bsLen := value } :=
  (step_writeReg ht).trans (congrArg _ (writeReg_bsLen value hst))

/-- What the boot sequence leaves as it issues START: the bytes in BS, their number, and the frame count. -/
def loaded (bytes : List Byte) (count : Word) (s : State) : State :=
  { s with
    turns := [], bs := s.bs.setBytes 0 bytes, bsLen := BitVec.ofNat 32 bytes.length, frameCount := count }

/-- The last three turns of the boot sequence: the two registers, and START. -/
theorem runSteps_setup {s : State} {bsLen count : Word} (hst : s.st = .idle)
    (ht : s.turns = [.act (.writeReg 6 bsLen), .act (.writeReg 5 count), startTurn]) :
    runSteps 3 s = .next (cmdStart { s with turns := [], bsLen := bsLen, frameCount := count }) := by
  have hlength := step_sets_bsLen hst ht
  have hcount := step_sets_frameCount (s := { s with turns := [.act (.writeReg 5 count), startTurn], bsLen := bsLen })
    hst rfl
  have hstart := step_start (s := { s with turns := [startTurn], bsLen := bsLen, frameCount := count }) rfl hst
  exact (runSteps_succ hlength).trans ((runSteps_succ hcount).trans (runSteps_succ hstart))

/-- The whole boot sequence from IDLE: the loads, the two registers, and START. -/
theorem runSteps_boot {bytes : List Byte} {count : Word} {s : State} (hst : s.st = .idle)
    (ht : s.turns = loadTurns 0 bytes ++
      [.act (.writeReg 6 (BitVec.ofNat 32 bytes.length)), .act (.writeReg 5 count), startTurn])
    (hlen : bytes.length < 2 ^ 32) :
    runSteps (bytes.length + 3) s = .next (cmdStart (loaded bytes count s)) :=
  (runSteps_add (runSteps_loadTurns bytes _ 0 s hst ht (by omega))).trans (runSteps_setup (by exact hst) rfl)

theorem bootTurns_eq_some {file : List Byte} {turns : List HostTurn} (h : bootTurns file = some turns) :
    772 ≤ file.length ∧ (fileBitstream file).length < 2 ^ 32 ∧ turns = loadTurns 0 (fileBitstream file) ++
      [.act (.writeReg 6 (BitVec.ofNat 32 (fileBitstream file).length)), .act (.writeReg 5 (fileFrameCount file)),
        startTurn] := by
  unfold bootTurns at h
  split_ifs at h with hshort hlong
  exact ⟨Nat.le_of_not_lt hshort, Nat.lt_of_not_le hlong, (Option.some.inj h).symm⟩

theorem length_loadTurns (bytes : List Byte) : ∀ offset, (loadTurns offset bytes).length = bytes.length := by
  induction bytes with
  | nil => intro _; rfl
  | cons b r ih => intro offset; rw [loadTurns, List.length_cons, ih, List.length_cons]

/-- The frame count of a file, its first byte least significant (20_memory.md R49). -/
theorem fileFrameCount_toNat (file : List Byte) : (fileFrameCount file).toNat =
    (file.getD 0 0).toNat + 256 * (file.getD 1 0).toNat + 65536 * (file.getD 2 0).toNat +
      16777216 * (file.getD 3 0).toNat := by
  refine (word32_toNat (file.getD 3 0) (file.getD 2 0) (file.getD 1 0) (file.getD 0 0)).trans ?_
  omega

/-- START keeps what the host has loaded (44_host_commands.md R146). -/
theorem cmdStart_keeps (s : State) : (cmdStart s).turns = s.turns ∧ (cmdStart s).bsLen = s.bsLen ∧
    (cmdStart s).bs = s.bs ∧ (cmdStart s).frameCount = s.frameCount := by
  by_cases hn : s.frameCount.toNat < 2
  · rw [cmdStart_refuses hn]; exact ⟨rfl, rfl, rfl, rfl⟩
  · rw [cmdStart_opens (Nat.not_lt.1 hn)]; exact ⟨rfl, rfl, rfl, rfl⟩

/-- Settles O41: the run ends with START on the loaded state, and START decides on the count. -/
theorem bootSequenceOpensTheMovie : Obligations.BootSequenceOpensTheMovie := by
  intro file turns s hboot hst ht
  obtain ⟨hheader, hlen, hturns⟩ := bootTurns_eq_some hboot
  have hcount : turns.length = (fileBitstream file).length + 3 := by
    rw [hturns, List.length_append, length_loadTurns]; rfl
  have hbytes : (fileBitstream file).length + 772 = file.length := by
    rw [fileBitstream, List.length_drop]; exact Nat.sub_add_cancel hheader
  obtain ⟨hnone, hbl, hbs, hfc⟩ := cmdStart_keeps (loaded (fileBitstream file) (fileFrameCount file) s)
  rw [hcount]
  refine ⟨_, runSteps_boot hst (ht.trans hturns) hlen, hnone, ?length, ?stored, ?count, ?opens, ?refuses⟩
  case length =>
    rw [hbl, loaded, BitVec.toNat_ofNat, Nat.mod_eq_of_lt hlen, hbytes]
  case stored =>
    intro k hk
    have hread := Memory.setBytes_byte (fileBitstream file) s.bs 0 k (by omega)
    rw [Nat.zero_add] at hread
    rw [hbs, loaded, hread, fileBitstream]
    simp
  case count => rw [hfc]; exact fileFrameCount_toNat file
  case opens =>
    intro hn
    rw [hfc] at hn
    rw [cmdStart_opens hn]
    exact ⟨rfl, rfl, rfl, fun a => Memory.byte_zeroed a⟩
  case refuses =>
    intro hn
    rw [hfc] at hn
    rw [cmdStart_refuses hn]
    exact ⟨rfl, rfl⟩

end Sys2Proof.Machine
end
